-- ==== Sys2Proof/Word.lean ====
section
/-! DEFINITION. The machine's words: 32-bit words, bytes, register indices, and the 16-bit and 26-bit
operand fields (spec/00_scope.md R8, R10). -/

namespace Sys2Proof

/-- A register value, memory word, address or instruction word (R8, R10). -/
abbrev Word := BitVec 32

/-- One byte of the host's byte-addressable memory (R19). -/
abbrev Byte := BitVec 8

/-- A 5-bit register index, 0 to 31 (R8, R42). -/
abbrev RegIdx := BitVec 5

/-- The 16-bit immediate field of an I-type word (R43). -/
abbrev Imm16 := BitVec 16

/-- The 26-bit target field of a J-type word (R44). -/
abbrev Target26 := BitVec 26

end Sys2Proof
end

