-- ==== Sys2Proof/Machine/Flags.lean ====
section
/-! DEFINITION. The ALU's overflow detection and its divider. The machine has no flags (spec/10_state.md R20): overflow is a
fault outcome, and these predicates decide it (spec/40_classic_alu.md R58, R62). -/

namespace Sys2Proof.Machine

/-- `AddOvf(a, b)`: same-sign operands producing a result of the opposite sign (R58). -/
def addOvf (a b : Word) : Bool := a.msb == b.msb && (a + b).msb != a.msb

/-- `SubOvf(a, b)`: operands of opposite signs, and a result whose sign is not the first operand's (R58). -/
def subOvf (a b : Word) : Bool := a.msb != b.msb && (a - b).msb != a.msb

/-- The quotient of split for a divisor that is not 0: truncated toward zero, and 0x80000000 for −2^31 by −1 (R62, D8;
log 17). -/
def quotient (a b : Word) : Word :=
  if a = 0x80000000 ∧ b = 0xFFFFFFFF then 0x80000000 else BitVec.ofInt 32 (Int.tdiv a.toInt b.toInt)

end Sys2Proof.Machine
end

