-- ==== Sys2Proof/Syntax.lean ====
section
/-! DEFINITION. The instructions (one constructor per row of spec/opcode_table.json, operands in the order of the
row's syntax, R55) and the shape of a catalog entry (R12, R49). -/

namespace Sys2Proof

/-- The 21 instructions of the closed list of R1. Each carries the fields it uses (R45); the fields it ignores
(R48) are no operands. -/
inductive Instr where
  /-- craft $rd, $rs, $rt (R59) -/
  | craft (rd rs rt : RegIdx)
  /-- punch $rd, $rs, $rt (R60) -/
  | punch (rd rs rt : RegIdx)
  /-- stack $rd, $rs, $rt (R63) -/
  | stack (rd rs rt : RegIdx)
  /-- fletch $rd, $rs, $rt (R64) -/
  | fletch (rd rs rt : RegIdx)
  /-- move $rt, $rs, imm (R61) -/
  | move (rt rs : RegIdx) (imm : Imm16)
  /-- chest $rt, imm($rs) (R65) -/
  | chest (rt rs : RegIdx) (imm : Imm16)
  /-- enchant $rt, imm($rs) (R66) -/
  | enchant (rt rs : RegIdx) (imm : Imm16)
  /-- split $rd, $rs, $rt (R62) -/
  | split (rd rs rt : RegIdx)
  /-- hop target (R67) -/
  | hop (target : Target26)
  /-- torch $rd, $rs (R69) -/
  | torch (rd rs : RegIdx)
  /-- strength $rd, $rs (R70) -/
  | strength (rd rs : RegIdx)
  /-- weakness $rd, $rs (R71) -/
  | weakness (rd rs : RegIdx)
  /-- speed $rd, $rs (R72) -/
  | speed (rd rs : RegIdx)
  /-- slowness $rd, $rs (R73) -/
  | slowness (rd rs : RegIdx)
  /-- summon $rd (R80) -/
  | summon (rd : RegIdx)
  /-- build $rt, imm($rs) (R76) -/
  | build (rt rs : RegIdx) (imm : Imm16)
  /-- break $rt, imm($rs) (R77) -/
  | breakBlock (rt rs : RegIdx) (imm : Imm16)
  /-- redstone $rd, $rs (R74) -/
  | redstone (rd rs : RegIdx)
  /-- creeper imm($rs) (R78) -/
  | creeper (rs : RegIdx) (imm : Imm16)
  /-- farm $rd, $rs (R75) -/
  | farm (rd rs : RegIdx)
  /-- reset (R81) -/
  | reset
deriving DecidableEq, Repr

/-- The EncodingFormat of a catalog entry (R12, R42 to R44). -/
inductive Format where
  | rType
  | iType
  | jType
deriving DecidableEq, Repr

/-- The SemanticRoutine a catalog entry names (R12). The meaning of each is in Sys2Proof/Machine. -/
inductive Routine where
  | craft | punch | stack | fletch | move | chest | enchant | split | hop | torch | strength | weakness | speed
  | slowness | summon | build | breakBlock | redstone | creeper | farm | reset
deriving DecidableEq, Repr

/-- One catalog entry: mnemonic, operand-syntax pattern, description, format, 32-bit field template as a
(match, mask) pair, and routine (R12, R49). -/
structure InstructionSpec where
  mnemonic : String
  operands : String
  description : String
  format : Format
  matchBits : Word
  mask : Word
  routine : Routine
deriving DecidableEq, Repr

/-- The routine that an instruction runs. -/
def Instr.routine : Instr → Routine
  | .craft _ _ _ => .craft
  | .punch _ _ _ => .punch
  | .stack _ _ _ => .stack
  | .fletch _ _ _ => .fletch
  | .move _ _ _ => .move
  | .chest _ _ _ => .chest
  | .enchant _ _ _ => .enchant
  | .split _ _ _ => .split
  | .hop _ => .hop
  | .torch _ _ => .torch
  | .strength _ _ => .strength
  | .weakness _ _ => .weakness
  | .speed _ _ => .speed
  | .slowness _ _ => .slowness
  | .summon _ => .summon
  | .build _ _ _ => .build
  | .breakBlock _ _ _ => .breakBlock
  | .redstone _ _ => .redstone
  | .creeper _ _ => .creeper
  | .farm _ _ => .farm
  | .reset => .reset

/-- The format of each routine's word (R45). -/
def Routine.format : Routine → Format
  | .craft | .punch | .stack | .fletch | .split => .rType
  | .torch | .strength | .weakness | .speed | .slowness | .redstone | .farm => .rType
  | .summon | .reset => .rType
  | .move | .chest | .enchant | .build | .breakBlock | .creeper => .iType
  | .hop => .jType

/-- The 21 routines in the order of R53. -/
def Routine.all : List Routine :=
  [.craft, .punch, .stack, .fletch, .move, .chest, .enchant, .split, .hop, .torch, .strength, .weakness, .speed,
   .slowness, .summon, .build, .breakBlock, .redstone, .creeper, .farm, .reset]

end Sys2Proof
end

