-- ==== Sys2Proof/WellFormed.lean ====
section
/-! DEFINITION. Well-formedness of catalog entries, of a catalog, and of an instruction under a catalog (spec/30_encoding.md
R43, R45, R49, R50, R52, R53). Operand ranges need no check: `RegIdx`, `Imm16` and `Target26` hold no other value. -/

namespace Sys2Proof

/-- Word `w` fits the entry when `(w & mask) = match` (R49). -/
def InstructionSpec.fits (sp : InstructionSpec) (w : Word) : Bool :=
  w &&& sp.mask == sp.matchBits

/-- The masks that R50 allows for a format: opcode and funct, or opcode, shamt and funct, for R-type; the opcode alone
for I-type and J-type. -/
def Format.masks : Format → List Word
  | .rType => [0xFC00003F, 0xFC0007FF]
  | .iType => [0xFC000000]
  | .jType => [0xFC000000]

/-- `match & ~mask = 0` (R49). -/
def InstructionSpec.matchInMask (sp : InstructionSpec) : Bool :=
  sp.matchBits &&& ~~~sp.mask == 0

/-- The mask is the one R50 gives the entry's format. -/
def InstructionSpec.maskOfFormat (sp : InstructionSpec) : Bool :=
  sp.format.masks.contains sp.mask

/-- The opcode is 000000 for R-type and is never 000000 for I-type (R42, R43); R52 makes the same true of J-type
beside any R-type entry. -/
def InstructionSpec.opcodeOfFormat (sp : InstructionSpec) : Bool :=
  (sp.matchBits.extractLsb' 26 6 == 0) == (sp.format == .rType)

/-- The entry has its routine's format (R45, R53: another catalog keeps the formats). -/
def InstructionSpec.formatOfRoutine (sp : InstructionSpec) : Bool :=
  sp.format == sp.routine.format

/-- All checks of one entry. -/
def InstructionSpec.wellFormed (sp : InstructionSpec) : Bool :=
  sp.matchInMask && sp.maskOfFormat && sp.opcodeOfFormat && sp.formatOfRoutine

/-- Two entries that no word can fit together: `((a.match ^ b.match) & a.mask & b.mask) != 0` (R52). -/
def InstructionSpec.disjoint (a b : InstructionSpec) : Bool :=
  (a.matchBits ^^^ b.matchBits) &&& a.mask &&& b.mask != 0

/-- The partition invariant: every two distinct positions of the catalog hold disjoint entries (R52). -/
def partitioned : List InstructionSpec → Bool
  | [] => true
  | sp :: rest => rest.all sp.disjoint && partitioned rest

/-- A list of entries that is a catalog: every entry well formed, and a partition (R52, R53). -/
def catalogWellFormed (c : List InstructionSpec) : Bool :=
  c.all (·.wellFormed) && partitioned c

/-- The entry a catalog holds for a routine, if any. -/
def rowIn (c : List InstructionSpec) (r : Routine) : Option InstructionSpec :=
  c.find? (·.routine == r)

/-- The instruction has an entry in the catalog, so that it has an encoding there. -/
def Instr.wellFormedIn (c : List InstructionSpec) (i : Instr) : Bool :=
  (rowIn c i.routine).isSome

end Sys2Proof
end

