-- ==== Sys2Proof/Decode.lean ====
section
/-! DEFINITION. The operand field extractor, the Instruction Catalog, the opcode matcher, the decoder, the encoder, catalog
construction and describe (spec/30_encoding.md, 00_scope.md R7, 70_reset_and_hazards.md R103, R105). Lookup, decode and
encode are written over any catalog (R9, D2); `catalog` is the default table of R53. -/

namespace Sys2Proof

/-! ## Fields (R42 to R44) -/

/-- `w[31:26]` -/
def opcodeOf (w : Word) : BitVec 6 := w.extractLsb' 26 6
/-- `w[25:21]` -/
def rsOf (w : Word) : RegIdx := w.extractLsb' 21 5
/-- `w[20:16]` -/
def rtOf (w : Word) : RegIdx := w.extractLsb' 16 5
/-- `w[15:11]` -/
def rdOf (w : Word) : RegIdx := w.extractLsb' 11 5
/-- `w[10:6]` -/
def shamtOf (w : Word) : BitVec 5 := w.extractLsb' 6 5
/-- `w[5:0]` -/
def functOf (w : Word) : BitVec 6 := w.extractLsb' 0 6
/-- `w[15:0]` -/
def immOf (w : Word) : Imm16 := w.extractLsb' 0 16
/-- `w[25:0]` -/
def targetOf (w : Word) : Target26 := w.extractLsb' 0 26

/-! ## The default catalog (R53) -/

/-- An R-type entry whose funct no other entry shares (R50). -/
def rEntry (m ops desc : String) (funct : Word) (r : Routine) : InstructionSpec :=
  ⟨m, ops, desc, .rType, funct, 0xFC00003F, r⟩

/-- An R-type entry in a shared-funct group: the match also fixes shamt (R50). -/
def rSubEntry (m ops desc : String) (matchBits : Word) (r : Routine) : InstructionSpec :=
  ⟨m, ops, desc, .rType, matchBits, 0xFC0007FF, r⟩

/-- An I-type entry: the opcode alone (R50). -/
def iEntry (m ops desc : String) (matchBits : Word) (r : Routine) : InstructionSpec :=
  ⟨m, ops, desc, .iType, matchBits, 0xFC000000, r⟩

/-- A J-type entry: the opcode alone (R50). -/
def jEntry (m ops desc : String) (matchBits : Word) (r : Routine) : InstructionSpec :=
  ⟨m, ops, desc, .jType, matchBits, 0xFC000000, r⟩

/-- The row of R53 for each routine, with the syntax of R55 and the effect text R57 asks for (log 24: where the spec
quotes no effect text of the source, the text is the model's reading of the rule). The numbers are D2 (log 12). -/
def catalogRow : Routine → InstructionSpec
  | .craft => rEntry "craft" "craft $rd, $rs, $rt" "rd = rs + rt, 32-bit two's-complement" 0x00000020 .craft
  | .punch => rEntry "punch" "punch $rd, $rs, $rt" "rd = rs - rt, 32-bit two's-complement" 0x00000022 .punch
  | .stack => rEntry "stack" "stack $rd, $rs, $rt" "rd = rs AND rt, bitwise" 0x00000024 .stack
  | .fletch => rEntry "fletch" "fletch $rd, $rs, $rt" "rd = rs OR rt, bitwise" 0x00000025 .fletch
  | .move => iEntry "move" "move $rt, $rs, imm" "rt = rs + sign_extend16(imm)" 0x20000000 .move
  | .chest => iEntry "chest" "chest $rt, imm($rs)" "Mem[rs + sign_extend16(imm)] = rt" 0xAC000000 .chest
  | .enchant => iEntry "enchant" "enchant $rt, imm($rs)" "rt = Mem[rs + sign_extend16(imm)]" 0x8C000000 .enchant
  | .split => rEntry "split" "split $rd, $rs, $rt" "rd = rs / rt, truncating toward zero" 0x0000001A .split
  | .hop => jEntry "hop" "hop target" "PC = (PC & 0xF0000000) | (target26 << 2)" 0x08000000 .hop
  | .torch => rEntry "torch" "torch $rd, $rs" "rd = NOT rs, bitwise" 0x00000027 .torch
  | .strength => rSubEntry "strength" "strength $rd, $rs" "rd = rs << 1 (arithmetic left shift, two's-complement)" 0x00000030 .strength
  | .weakness => rSubEntry "weakness" "weakness $rd, $rs" "rd = rs >> 1 (arithmetic right shift, sign-preserving)" 0x00000070 .weakness
  | .speed => rSubEntry "speed" "speed $rd, $rs" "rd = rs + 5" 0x000000B0 .speed
  | .slowness => rSubEntry "slowness" "slowness $rd, $rs" "rd = rs - 5" 0x000000F0 .slowness
  | .summon => rSubEntry "summon" "summon $rd" "increments the Catalog-owned counter and writes its new value to rd" 0x00000031 .summon
  | .build => iEntry "build" "build $rt, imm($rs)" "identical contract to store-word, distinct opcode" 0xBC000000 .build
  | .breakBlock => iEntry "break" "break $rt, imm($rs)" "reads Mem[rs + imm] into rd, then zeroes that same memory word" 0x9C000000 .breakBlock
  | .redstone => rEntry "redstone" "redstone $rd, $rs" "rd = rs XOR 1" 0x00000026 .redstone
  | .creeper => iEntry "creeper" "creeper imm($rs)" "zeroes memory words from a computed start to a computed end" 0xFC000000 .creeper
  | .farm => rEntry "farm" "farm $rd, $rs" "rd = rs + 1" 0x00000028 .farm
  | .reset => rSubEntry "reset" "reset" "resets the Catalog-owned counter to 0" 0x00000071 .reset

/-- The Instruction Catalog: constant state, the table of R53 (R14, R24). -/
def catalog : List InstructionSpec := Routine.all.map catalogRow

/-! ## Lookup (R51) and construction (R52, R103, R105) -/

/-- The parallel compare of R51. Two or more hits cannot happen in a partition (R52); a list that breaks it is no
catalog and has no behaviour, so NotFound there is safe (log 28). -/
def lookupIn (c : List InstructionSpec) (w : Word) : Option InstructionSpec :=
  match c.filter (·.fits w) with
  | [sp] => some sp
  | _ => none

/-- Lookup in the default catalog. -/
def lookup (w : Word) : Option InstructionSpec := lookupIn catalog w

/-- Why a catalog cannot be constructed: the entry named first collides with the already registered one (R52). -/
inductive ConfigError where
  | collision (entry registered : String)
deriving DecidableEq, Repr

/-- `register(spec)`: fails if the entry's fixed bits collide with an already registered entry's (R52). -/
def register (c : List InstructionSpec) (sp : InstructionSpec) : Except ConfigError (List InstructionSpec) :=
  match c.find? (fun old => !sp.disjoint old) with
  | some old => .error (.collision sp.mnemonic old.mnemonic)
  | none => .ok (c ++ [sp])

/-- Catalog construction: every entry registered in turn onto the entries already there (R103, R105). -/
def registerAll (c : List InstructionSpec) : List InstructionSpec → Except ConfigError (List InstructionSpec)
  | [] => .ok c
  | sp :: rest =>
    match register c sp with
    | .error e => .error e
    | .ok c' => registerAll c' rest

/-! ## Extraction and decode (R7, R46) -/

/-- The operands of each routine taken from the word's fields: `[rd, rs, rt]`, `[rt, rs, imm]` or the target (R46), less
the fields the routine ignores (R48). Sign extension and the join with `pc_in` are in Machine/Operands.lean. -/
def extract (r : Routine) (w : Word) : Instr :=
  match r with
  | .craft => .craft (rdOf w) (rsOf w) (rtOf w)
  | .punch => .punch (rdOf w) (rsOf w) (rtOf w)
  | .stack => .stack (rdOf w) (rsOf w) (rtOf w)
  | .fletch => .fletch (rdOf w) (rsOf w) (rtOf w)
  | .move => .move (rtOf w) (rsOf w) (immOf w)
  | .chest => .chest (rtOf w) (rsOf w) (immOf w)
  | .enchant => .enchant (rtOf w) (rsOf w) (immOf w)
  | .split => .split (rdOf w) (rsOf w) (rtOf w)
  | .hop => .hop (targetOf w)
  | .torch => .torch (rdOf w) (rsOf w)
  | .strength => .strength (rdOf w) (rsOf w)
  | .weakness => .weakness (rdOf w) (rsOf w)
  | .speed => .speed (rdOf w) (rsOf w)
  | .slowness => .slowness (rdOf w) (rsOf w)
  | .summon => .summon (rdOf w)
  | .build => .build (rtOf w) (rsOf w) (immOf w)
  | .breakBlock => .breakBlock (rtOf w) (rsOf w) (immOf w)
  | .redstone => .redstone (rdOf w) (rsOf w)
  | .creeper => .creeper (rsOf w) (immOf w)
  | .farm => .farm (rdOf w) (rsOf w)
  | .reset => .reset

/-- Why bytes are no instruction: the word fits no entry (NotFound, R51, R54), or fewer than four bytes were given. -/
inductive DecodeError where
  | notFound (w : Word)
  | shortInput (given : Nat)
deriving DecidableEq, Repr

/-- Steps 1 to 3 of Dispatch under a given catalog (R7). -/
def decodeIn (c : List InstructionSpec) (w : Word) : Except DecodeError Instr :=
  match lookupIn c w with
  | some sp => .ok (extract sp.routine w)
  | none => .error (.notFound w)

/-- Decode under the default catalog. -/
def decode (w : Word) : Except DecodeError Instr := decodeIn catalog w

/-- The word whose bytes lie at rising addresses: byte `i` holds bits `8i+7 .. 8i` (R32, D14; log 15). -/
def wordOfBytes (b0 b1 b2 b3 : Byte) : Word := b3 ++ b2 ++ b1 ++ b0

/-- Byte `i` of a word in the little-endian view (R32). -/
def byteOfWord (w : Word) (i : Nat) : Byte := w.extractLsb' (8 * i) 8

/-- Total on any bytes: the instruction in the first four bytes and the bytes after it (R41: no other length). -/
def decodeBytes : List Byte → Except DecodeError (Instr × List Byte)
  | b0 :: b1 :: b2 :: b3 :: rest =>
    match decode (wordOfBytes b0 b1 b2 b3) with
    | .ok i => .ok (i, rest)
    | .error e => .error e
  | bs => .error (.shortInput bs.length)

/-- What the host asks of the decoder: the instruction whose bits are `w`, in an opcode-table row of `nbits` bits, the
bits above `nbits` being 0, laid out as the four bytes that hold it. -/
def decodeTableWord (nbits w : Nat) : Option Instr :=
  let v : Word := BitVec.ofNat 32 (w % 2 ^ nbits)
  match decodeBytes [byteOfWord v 0, byteOfWord v 1, byteOfWord v 2, byteOfWord v 3] with
  | .ok (i, _) => some i
  | .error _ => none

/-! ## The encoder (R42 to R44, R56: unused fields 0) -/

/-- A register index placed in the rs field. -/
def rsBits (r : RegIdx) : Word := r.setWidth 32 <<< 21
/-- A register index placed in the rt field. -/
def rtBits (r : RegIdx) : Word := r.setWidth 32 <<< 16
/-- A register index placed in the rd field. -/
def rdBits (r : RegIdx) : Word := r.setWidth 32 <<< 11

/-- The operand fields of an instruction's word, every other bit 0. -/
def operandBits : Instr → Word
  | .craft rd rs rt => rsBits rs ||| rtBits rt ||| rdBits rd
  | .punch rd rs rt => rsBits rs ||| rtBits rt ||| rdBits rd
  | .stack rd rs rt => rsBits rs ||| rtBits rt ||| rdBits rd
  | .fletch rd rs rt => rsBits rs ||| rtBits rt ||| rdBits rd
  | .move rt rs imm => rsBits rs ||| rtBits rt ||| imm.setWidth 32
  | .chest rt rs imm => rsBits rs ||| rtBits rt ||| imm.setWidth 32
  | .enchant rt rs imm => rsBits rs ||| rtBits rt ||| imm.setWidth 32
  | .split rd rs rt => rsBits rs ||| rtBits rt ||| rdBits rd
  | .hop target => target.setWidth 32
  | .torch rd rs => rsBits rs ||| rdBits rd
  | .strength rd rs => rsBits rs ||| rdBits rd
  | .weakness rd rs => rsBits rs ||| rdBits rd
  | .speed rd rs => rsBits rs ||| rdBits rd
  | .slowness rd rs => rsBits rs ||| rdBits rd
  | .summon rd => rdBits rd
  | .build rt rs imm => rsBits rs ||| rtBits rt ||| imm.setWidth 32
  | .breakBlock rt rs imm => rsBits rs ||| rtBits rt ||| imm.setWidth 32
  | .redstone rd rs => rsBits rs ||| rdBits rd
  | .creeper rs imm => rsBits rs ||| imm.setWidth 32
  | .farm rd rs => rsBits rs ||| rdBits rd
  | .reset => 0

/-- The word of an instruction under any catalog; none where the catalog has no entry for it. -/
def encodeIn (c : List InstructionSpec) (i : Instr) : Option Word :=
  (rowIn c i.routine).map fun sp => sp.matchBits ||| operandBits i

/-- The word of an instruction under the default catalog. -/
def encode (i : Instr) : Word := (catalogRow i.routine).matchBits ||| operandBits i

/-- The operand bits a routine uses (R45); the bits neither here nor in the entry's mask are ignored (R48). -/
def operandMask : Routine → Word
  | .craft | .punch | .stack | .fletch | .split => 0x03FFF800
  | .torch | .strength | .weakness | .speed | .slowness | .redstone | .farm => 0x03E0F800
  | .summon => 0x0000F800
  | .reset => 0x00000000
  | .move | .chest | .enchant | .build | .breakBlock => 0x03FFFFFF
  | .creeper => 0x03E0FFFF
  | .hop => 0x03FFFFFF

/-- Every bit of the word that the match or the effect of a routine depends on, under the default catalog (R48). -/
def usedBits (r : Routine) : Word := (catalogRow r).mask ||| operandMask r

/-! ## Describe (R57) -/

/-- What `describe` returns. -/
structure Description where
  mnemonic : String
  operands : String
  description : String
deriving DecidableEq, Repr

/-- `describe(spec)`: reads only the catalog entry and changes no state (R57). -/
def describe (sp : InstructionSpec) : Description := ⟨sp.mnemonic, sp.operands, sp.description⟩

/-- The whole catalog described (R57). -/
def describeAll : List Description := catalog.map describe

end Sys2Proof
end

