-- ==== Sys2Proof/Config.lean ====
section
/-! DEFINITION. What the host fixes for one machine, as data (spec/00_scope.md R9). The decided parameters
(`REG0_HARDWIRED`, `PC_VIEW_OFFSET`) and the values chosen for reset are in Sys2Proof/Machine/Params.lean. The
OPEN ones (`MEM_VALID_R`, `MEM_VALID_W`, `SMC`, `RF_INIT`) are fields of State, which every statement leaves
arbitrary; `END_PC` is an argument of the run function in Sys2Proof/Safety.lean. No free value is needed:
spec/93_implementation_defined.md says that no rule leaves a written value unspecified. -/

namespace Sys2Proof

/-- One range of the host's address space and whether the memory port accepts a read or a write there. A list of
these stands for the two predicates `MEM_VALID_R` and `MEM_VALID_W` (R31, D15): any pair of predicates over the
2^32 addresses can be written as such a list. -/
structure Region where
  base : Nat
  size : Nat
  readable : Bool
  writable : Bool
deriving DecidableEq, Repr

end Sys2Proof
end

