-- ==== Sys2Proof/Machine/Params.lean ====
section
/-! DEFINITION. The implementation parameters that have a default in spec/00_scope.md R9, and the values this model names at
reset where the spec gives none. -/

namespace Sys2Proof.Machine

/-- `REG0_HARDWIRED`: index 0 reads 0 and ignores writes (R9, R15, D4; log 13). -/
def reg0Hardwired : Bool := true

/-- `PC_VIEW_OFFSET`: `pc_in` less the address of the executing instruction (R9, R17, D5; log 14). -/
def pcViewOffset : Word := 4

/-- The length of an instruction in bytes: the host's sequential advance (R18, R41, D6). -/
def instrBytes : Word := 4

/-- What a byte of memory that nothing has written reads as (the spec gives no contents, R19, R24). DESIGN CHOICE, log 5. -/
def unlistedByte : Byte := 0

/-- `RF_INIT` of registers 1 to 31 (R24 gives no value). DESIGN CHOICE, log 3. -/
def resetRegister : Word := 0

/-- The entry PC (R24, R104 give no value). DESIGN CHOICE, log 4. -/
def resetPc : Word := 0x00400000

/-- `MEM_VALID_R` and `MEM_VALID_W` at reset (OPEN, R31, D15): every address readable and writable. DESIGN CHOICE, log 6. -/
def resetMemMap : List Region := [⟨0, 4294967296, true, true⟩]

/-- `SMC` at reset (OPEN, R40, D21): stores are seen by later fetches. DESIGN CHOICE, log 7. -/
def resetSmc : Bool := true

end Sys2Proof.Machine
end

