-- ==== Sys2Proof/Machine/State.lean ====
section
/-! DEFINITION. The machine's state, its fault record, and the reasons a step can stop (spec/10_state.md,
60_exceptions.md R84, R93). -/

namespace Sys2Proof.Machine

/-- Byte-addressed memory as (address, byte) pairs, addresses strictly rising, no entry equal to what an unlisted address
reads as (R19; the operations are in Machine/Memory.lean). -/
abbrev Memory := List Host.Cell

/-- The form holds from address `lo` on: addresses strictly rising, inside the 32-bit space, no entry holding the unlisted
byte. -/
def Memory.wfFrom : Nat → Memory → Bool
  | _, [] => true
  | lo, (a, b) :: rest => decide (lo ≤ a) && decide (a < 2 ^ 32) && b != unlistedByte && Memory.wfFrom (a + 1) rest

/-- The canonical form of a memory. -/
def Memory.wf (m : Memory) : Bool := Memory.wfFrom 0 m

/-- The `access` of an address fault (R84). -/
inductive Access where
  | load
  | store
deriving DecidableEq, Repr

/-- The `reason` of an address fault (R84, R87). -/
inductive Reason where
  | misaligned
  | outOfRange
deriving DecidableEq, Repr

/-- The fault kinds of the taxonomy, an address fault with what its record carries besides (R84). -/
inductive FaultKind where
  /-- Raised for a word that fits no catalog entry (R86). -/
  | encoding
  /-- Raised by craft, punch and move (R85). -/
  | arithmeticOverflow
  /-- Raised by split (R89). -/
  | divideByZero
  /-- Raised by chest, enchant, build, break and creeper (R87). -/
  | address (access : Access) (addr : Word) (reason : Reason)
deriving DecidableEq, Repr

/-- The fault record (R84): the kind, its code, the instruction word, and `pc_in` of the dispatch. -/
structure FaultRecord where
  kind : FaultKind
  code : Nat
  word : Word
  pc : Word
deriving DecidableEq, Repr

/-- Everything the spec gives the machine, and the OPEN parameters of its host. -/
structure State where
  /-- The host's register file, x[0] to x[31] (R15); read and written only through `State.reg` and `State.setReg`. -/
  regs : Vector Word 32
  /-- The address of the next instruction to dispatch, or of the faulting one (R17, R18, R93). -/
  pc : Word
  /-- The summon counter (R13). -/
  cnt : Word
  /-- The host's data memory (R19, R25). -/
  mem : Memory
  /-- Instruction memory as the host loaded it; fetch reads it while `smc` is false (R40, R106, R109). -/
  code : Memory
  /-- `SMC`: a store is seen by later fetches (R9, R109). -/
  smc : Bool
  /-- `MEM_VALID_R` and `MEM_VALID_W` (R9, R31). -/
  memMap : List Region
  /-- The instruction word the host presents to the dispatch (R6, R7). -/
  word : Word
  /-- The recorded faulted state of `HOST_TRAP` (R93): the record of the fault that ended the run, if one did. -/
  fault : Option FaultRecord
deriving DecidableEq, Repr

/-- Why the machine stops. -/
inductive Fault where
  /-- Raised by `step` in a state that holds a fault record: the run has stopped and no further instruction is dispatched
  (R93). Safe: nothing runs where the spec runs nothing. -/
  | stopped (r : FaultRecord)
  /-- Raised by `step` where the PC is no multiple of 4: fetch is the host's, and the spec does not say what a fetch at such
  an address gives (R18, R104; log 10). Safe: the model stops where the host may go on. -/
  | fetchMisaligned (pc : Word)
deriving DecidableEq, Repr

/-- Why a step has no meaning. -/
inductive Refusal where
  /-- Would be raised by an arm of exec whose instruction has no meaning yet; no arm is such. Safe. -/
  | notModelled (mnemonic : String)
deriving DecidableEq, Repr

/-- The machine right after the construction of the catalog (R24, R103): `cnt` is 0 and no fault is recorded. The other
values are the host's; log 3 to 8 name them. -/
def State.reset : State where
  regs := (Vector.replicate 32 resetRegister).set 0 0
  pc := resetPc
  cnt := 0
  mem := []
  code := []
  smc := resetSmc
  memMap := resetMemMap
  word := 0
  fault := none

end Sys2Proof.Machine
end

