-- ==== Sys2Proof/Machine/Memory.lean ====
section
/-! DEFINITION. Bytes and words of a memory (spec/10_state.md R19, 20_memory.md R26, R32). The keys are addresses as numbers;
an address past 2^32 - 1 is never formed, because the addresses are 32-bit words. -/

namespace Sys2Proof.Machine

/-- The byte at an address. -/
def Memory.readByte : Memory → Nat → Byte
  | [], _ => unlistedByte
  | (k, b) :: rest, a => if a = k then b else if a < k then unlistedByte else Memory.readByte rest a

/-- The memory with one byte written, in the canonical form: the entry is dropped where the byte is the unlisted one. -/
def Memory.writeByte : Memory → Nat → Byte → Memory
  | [], a, v => if v = unlistedByte then [] else [(a, v)]
  | (k, b) :: rest, a, v =>
    if a < k then (if v = unlistedByte then (k, b) :: rest else (a, v) :: (k, b) :: rest)
    else if a = k then (if v = unlistedByte then rest else (a, v) :: rest)
    else (k, b) :: Memory.writeByte rest a v

/-- The address of byte `i` of the word at `a`, modulo 2^32. -/
def byteAddr (a : Word) (i : Nat) : Nat := (a + BitVec.ofNat 32 i).toNat

/-- The word at an address, least significant byte at the lowest address (R32, D14; log 15). -/
def Memory.readWord (m : Memory) (a : Word) : Word :=
  wordOfBytes (m.readByte (byteAddr a 0)) (m.readByte (byteAddr a 1)) (m.readByte (byteAddr a 2)) (m.readByte (byteAddr a 3))

/-- The memory with the word at an address written (R32). -/
def Memory.writeWord (m : Memory) (a v : Word) : Memory :=
  (((m.writeByte (byteAddr a 0) (byteOfWord v 0)).writeByte (byteAddr a 1) (byteOfWord v 1)).writeByte
    (byteAddr a 2) (byteOfWord v 2)).writeByte (byteAddr a 3) (byteOfWord v 3)

end Sys2Proof.Machine
end

