-- ==== Sys2Proof/Machine/Operands.lean ====
section
/-! DEFINITION. Operand forms: the register-file port, the sign-extended immediate, the effective address, the PC port's view
and the jump target (spec/10_state.md R15, R17; 20_memory.md R27; 30_encoding.md R46, R47). -/

namespace Sys2Proof.Machine

/-- `get(index)`: index 0 reads 0 under `REG0_HARDWIRED` (R15). -/
def State.reg (s : State) (r : RegIdx) : Word :=
  if reg0Hardwired && r == 0 then 0 else s.regs[r.toNat]'(r.isLt)

/-- `set(index, value)`: a write to index 0 has no effect under `REG0_HARDWIRED` (R15). -/
def State.setReg (s : State) (r : RegIdx) (v : Word) : State :=
  { s with regs := if reg0Hardwired && r == 0 then s.regs else s.regs.set r.toNat v r.isLt }

/-- `sext_16` (R10, R47). -/
def sext16 (imm : Imm16) : Word := imm.signExtend 32

/-- `EA(rs, imm16) = x[rs] + sext_16(imm16)`, modulo 2^32 (R27). -/
def State.ea (s : State) (rs : RegIdx) (imm : Imm16) : Word := s.reg rs + sext16 imm

/-- `pc_in`, what `current()` gives during a dispatch (R17). -/
def State.pcIn (s : State) : Word := s.pc + pcViewOffset

/-- `(pc_in & 0xF0000000) | (zext_32(target26) << 2)` (R46, R67). -/
def jumpTarget (pcIn : Word) (target : Target26) : Word :=
  (pcIn &&& 0xF0000000) ||| (target.setWidth 32 <<< 2)

end Sys2Proof.Machine
end

