-- ==== Sys2Proof/Machine/Ops.lean ====
section
/-! DEFINITION. The shared operations: ending a dispatch, taking a fault, the memory access engine, and the shapes several
instructions share (spec/20_memory.md, 60_exceptions.md). The spec gives no return from a fault (R94), so there is none. -/

namespace Sys2Proof.Machine

/-- `finish`: the outcome Done, and the host's sequential advance of the PC (R10, R18, D6). -/
def finish (s : State) : Host.Outcome State Fault Refusal := .next { s with pc := s.pc + instrBytes }

/-- Done after `set_target(target)`: the next PC is the target, no delay slot (R18, R68, R108). -/
def finishAt (target : Word) (s : State) : Host.Outcome State Fault Refusal := .next { s with pc := target }

/-- The code of each fault (R84, D16; log 16). -/
def faultCode : FaultKind → Nat
  | .address .load _ _ => 4
  | .address .store _ _ => 5
  | .encoding => 10
  | .arithmeticOverflow => 12
  | .divideByZero => 15

/-- The record of a fault raised by the dispatch in progress: its kind and code, the word presented, and `pc_in` (R84). -/
def faultRecord (k : FaultKind) (s : State) : FaultRecord :=
  { kind := k, code := faultCode k, word := s.word, pc := s.pcIn }

/-- Taking a fault: the dispatch ends with the effects already performed kept, the host records the fault and the PC stays
at the faulting instruction (R10, R83, R92, R93). -/
def raise (k : FaultKind) (s : State) : Host.Outcome State Fault Refusal :=
  .next { s with fault := some (faultRecord k s) }

/-! ## The memory access engine -/

/-- A word-aligned address: `addr[1:0] = 00` (R28). -/
def aligned (a : Word) : Bool := a.extractLsb' 0 2 == 0

/-- The address lies in the region. -/
def inRegion (a : Word) (r : Region) : Bool := decide (r.base ≤ a.toNat) && decide (a.toNat < r.base + r.size)

/-- `MEM_VALID_R(a)` (R31). -/
def State.validR (s : State) (a : Word) : Bool := s.memMap.any fun r => r.readable && inRegion a r

/-- `MEM_VALID_W(a)` (R31). -/
def State.validW (s : State) (a : Word) : Bool := s.memMap.any fun r => r.writable && inRegion a r

/-- `MemRead(addr, 4)`: alignment first, then the port's range check (R29, R90). -/
def memRead (s : State) (a : Word) : Except FaultKind Word :=
  if aligned a then
    if s.validR a then .ok (s.mem.readWord a) else .error (.address .load a .outOfRange)
  else .error (.address .load a .misaligned)

/-- `MemWrite(addr, 4, v)`: alignment first, then the port's range check; a faulting write leaves memory unchanged
(R30, R90). -/
def memWrite (s : State) (a v : Word) : Except FaultKind State :=
  if aligned a then
    if s.validW a then .ok { s with mem := s.mem.writeWord a v } else .error (.address .store a .outOfRange)
  else .error (.address .store a .misaligned)

/-! ## Shapes -/

/-- Write a result register, then Done. -/
def writeAndFinish (rd : RegIdx) (v : Word) (s : State) : Host.Outcome State Fault Refusal := finish (s.setReg rd v)

/-- A result with an overflow check: on overflow the destination is not written (R59 to R61, R85). -/
def checkedWrite (ovf : Bool) (rd : RegIdx) (v : Word) (s : State) : Host.Outcome State Fault Refusal :=
  if ovf then raise .arithmeticOverflow s else writeAndFinish rd v s

/-- Store-word: the effective address, one write of x[rt] (R65, R76). -/
def storeWord (rt rs : RegIdx) (imm : Imm16) (s : State) : Host.Outcome State Fault Refusal :=
  match memWrite s (s.ea rs imm) (s.reg rt) with
  | .error k => raise k s
  | .ok s' => finish s'

/-- A run of `n` words zeroed at rising addresses from `a`, modulo 2^32; the first write that faults ends it, the words
before it staying zero (R78). -/
def zeroWords : Nat → Word → State → State × Option FaultKind
  | 0, _, s => (s, none)
  | n + 1, a, s =>
    match memWrite s a 0 with
    | .error k => (s, some k)
    | .ok s' => zeroWords n (a + 4) s'

end Sys2Proof.Machine
end

