-- ==== Sys2Proof/Machine/ClassicAlu.lean ====
section
/-! DEFINITION. craft, punch, move, split (spec/40_classic_alu.md). -/

namespace Sys2Proof.Machine

/-- craft: x[rd] <- x[rs] + x[rt], overflow faults (R59). -/
def execCraft (rd rs rt : RegIdx) (s : State) : Host.Outcome State Fault Refusal :=
  checkedWrite (addOvf (s.reg rs) (s.reg rt)) rd (s.reg rs + s.reg rt) s

/-- punch: x[rd] <- x[rs] - x[rt], overflow faults (R60). -/
def execPunch (rd rs rt : RegIdx) (s : State) : Host.Outcome State Fault Refusal :=
  checkedWrite (subOvf (s.reg rs) (s.reg rt)) rd (s.reg rs - s.reg rt) s

/-- move: x[rt] <- x[rs] + sext_16(imm), overflow faults (R61). -/
def execMove (rt rs : RegIdx) (imm : Imm16) (s : State) : Host.Outcome State Fault Refusal :=
  checkedWrite (addOvf (s.reg rs) (sext16 imm)) rt (s.reg rs + sext16 imm) s

/-- split: x[rd] <- x[rs] / x[rt] toward zero; a zero divisor faults (R62, R89). -/
def execSplit (rd rs rt : RegIdx) (s : State) : Host.Outcome State Fault Refusal :=
  if s.reg rt = 0 then raise .divideByZero s else writeAndFinish rd (quotient (s.reg rs) (s.reg rt)) s

end Sys2Proof.Machine
end

