-- ==== Sys2Proof/Machine/ClassicControl.lean ====
section
/-! DEFINITION. hop (spec/43_classic_control.md). -/

namespace Sys2Proof.Machine

/-- hop: the PC goes to the target formed from `pc_in` (R67); no range check, no link, no delay slot (R68). -/
def execHop (target : Target26) (s : State) : Host.Outcome State Fault Refusal :=
  finishAt (jumpTarget s.pcIn target) s

end Sys2Proof.Machine
end

