-- ==== Sys2Proof/Machine/ClassicLogic.lean ====
section
/-! DEFINITION. stack, fletch (spec/41_classic_logic.md). -/

namespace Sys2Proof.Machine

/-- stack: x[rd] <- x[rs] & x[rt] (R63). -/
def execStack (rd rs rt : RegIdx) (s : State) : Host.Outcome State Fault Refusal :=
  writeAndFinish rd (s.reg rs &&& s.reg rt) s

/-- fletch: x[rd] <- x[rs] | x[rt] (R64). -/
def execFletch (rd rs rt : RegIdx) (s : State) : Host.Outcome State Fault Refusal :=
  writeAndFinish rd (s.reg rs ||| s.reg rt) s

end Sys2Proof.Machine
end

