-- ==== Sys2Proof/Machine/ClassicMemory.lean ====
section
/-! DEFINITION. chest, enchant (spec/42_classic_memory.md). -/

namespace Sys2Proof.Machine

/-- chest: store x[rt] at the effective address (R65). -/
def execChest (rt rs : RegIdx) (imm : Imm16) (s : State) : Host.Outcome State Fault Refusal :=
  storeWord rt rs imm s

/-- enchant: load the word at the effective address into x[rt]; on a fault x[rt] is unchanged (R66). -/
def execEnchant (rt rs : RegIdx) (imm : Imm16) (s : State) : Host.Outcome State Fault Refusal :=
  match memRead s (s.ea rs imm) with
  | .error k => raise k s
  | .ok v => writeAndFinish rt v s

end Sys2Proof.Machine
end

