-- ==== Sys2Proof/Machine/ThematicAlu.lean ====
section
/-! DEFINITION. torch, strength, weakness, speed, slowness, redstone, farm (spec/44_thematic_alu.md). None checks overflow and
none faults. -/

namespace Sys2Proof.Machine

/-- torch: x[rd] <- ~x[rs] (R69). -/
def execTorch (rd rs : RegIdx) (s : State) : Host.Outcome State Fault Refusal :=
  writeAndFinish rd (~~~(s.reg rs)) s

/-- strength: x[rd] <- x[rs] << 1 (R70). -/
def execStrength (rd rs : RegIdx) (s : State) : Host.Outcome State Fault Refusal :=
  writeAndFinish rd (s.reg rs <<< 1) s

/-- weakness: x[rd] <- x[rs] >>s 1 (R71). -/
def execWeakness (rd rs : RegIdx) (s : State) : Host.Outcome State Fault Refusal :=
  writeAndFinish rd ((s.reg rs).sshiftRight 1) s

/-- speed: x[rd] <- x[rs] + 5 (R72). -/
def execSpeed (rd rs : RegIdx) (s : State) : Host.Outcome State Fault Refusal :=
  writeAndFinish rd (s.reg rs + 5) s

/-- slowness: x[rd] <- x[rs] - 5 (R73). -/
def execSlowness (rd rs : RegIdx) (s : State) : Host.Outcome State Fault Refusal :=
  writeAndFinish rd (s.reg rs - 5) s

/-- redstone: x[rd] <- x[rs] ^ 1 (R74). -/
def execRedstone (rd rs : RegIdx) (s : State) : Host.Outcome State Fault Refusal :=
  writeAndFinish rd (s.reg rs ^^^ 1) s

/-- farm: x[rd] <- x[rs] + 1 (R75). -/
def execFarm (rd rs : RegIdx) (s : State) : Host.Outcome State Fault Refusal :=
  writeAndFinish rd (s.reg rs + 1) s

end Sys2Proof.Machine
end

