-- ==== Sys2Proof/Machine/ThematicCounter.lean ====
section
/-! DEFINITION. summon, reset (spec/46_thematic_counter.md). -/

namespace Sys2Proof.Machine

/-- summon: cnt <- cnt + 1 modulo 2^32, and x[rd] <- the new value (R80). -/
def execSummon (rd : RegIdx) (s : State) : Host.Outcome State Fault Refusal :=
  writeAndFinish rd (s.cnt + 1) { s with cnt := s.cnt + 1 }

/-- reset: cnt <- 0 (R81). -/
def execReset (s : State) : Host.Outcome State Fault Refusal :=
  finish { s with cnt := 0 }

end Sys2Proof.Machine
end

