-- ==== Sys2Proof/Machine/ThematicMemory.lean ====
section
/-! DEFINITION. build, break, creeper (spec/45_thematic_memory.md). -/

namespace Sys2Proof.Machine

/-- build: the contract of chest under its own opcode (R76). -/
def execBuild (rt rs : RegIdx) (imm : Imm16) (s : State) : Host.Outcome State Fault Refusal :=
  storeWord rt rs imm s

/-- break: read the word, write x[rt], then zero the word; a write fault leaves x[rt] written (R77, R88). The address uses
the old x[rs]. -/
def execBreak (rt rs : RegIdx) (imm : Imm16) (s : State) : Host.Outcome State Fault Refusal :=
  match memRead s (s.ea rs imm) with
  | .error k => raise k s
  | .ok v =>
    match memWrite (s.setReg rt v) (s.ea rs imm) 0 with
    | .error k => raise k (s.setReg rt v)
    | .ok s' => finish s'

/-- How many words creeper zeroes: none for a negative offset, else floor(off / 4) + 1 (R78). -/
def creeperCount (imm : Imm16) : Nat :=
  if (sext16 imm).toInt < 0 then 0 else ((sext16 imm).toInt / 4).toNat + 1

/-- creeper: zero the words from x[rs] on; a fault part-way keeps the words before it zeroed (R78, R79; D9, log 18). -/
def execCreeper (rs : RegIdx) (imm : Imm16) (s : State) : Host.Outcome State Fault Refusal :=
  match zeroWords (creeperCount imm) (s.reg rs) s with
  | (s', some k) => raise k s'
  | (s', none) => finish s'

end Sys2Proof.Machine
end

