-- ==== Sys2Proof/Machine/Dispatch.lean ====
section
/-! DEFINITION. Execute(spec, ops): one arm per instruction (spec/00_scope.md R7). -/

namespace Sys2Proof.Machine

def exec (i : Instr) (s : State) : Host.Outcome State Fault Refusal :=
  match i with
  | .craft rd rs rt => Sys2Proof.Machine.execCraft rd rs rt s
  | .punch rd rs rt => Sys2Proof.Machine.execPunch rd rs rt s
  | .stack rd rs rt => Sys2Proof.Machine.execStack rd rs rt s
  | .fletch rd rs rt => Sys2Proof.Machine.execFletch rd rs rt s
  | .move rt rs imm => Sys2Proof.Machine.execMove rt rs imm s
  | .chest rt rs imm => Sys2Proof.Machine.execChest rt rs imm s
  | .enchant rt rs imm => Sys2Proof.Machine.execEnchant rt rs imm s
  | .split rd rs rt => Sys2Proof.Machine.execSplit rd rs rt s
  | .hop target => Sys2Proof.Machine.execHop target s
  | .torch rd rs => Sys2Proof.Machine.execTorch rd rs s
  | .strength rd rs => Sys2Proof.Machine.execStrength rd rs s
  | .weakness rd rs => Sys2Proof.Machine.execWeakness rd rs s
  | .speed rd rs => Sys2Proof.Machine.execSpeed rd rs s
  | .slowness rd rs => Sys2Proof.Machine.execSlowness rd rs s
  | .summon rd => Sys2Proof.Machine.execSummon rd s
  | .build rt rs imm => Sys2Proof.Machine.execBuild rt rs imm s
  | .breakBlock rt rs imm => Sys2Proof.Machine.execBreak rt rs imm s
  | .redstone rd rs => Sys2Proof.Machine.execRedstone rd rs s
  | .creeper rs imm => Sys2Proof.Machine.execCreeper rs imm s
  | .farm rd rs => Sys2Proof.Machine.execFarm rd rs s
  | .reset => Sys2Proof.Machine.execReset s

end Sys2Proof.Machine
end

