-- ==== Sys2Proof/Machine/Fetch.lean ====
section
/-! DEFINITION. The host's fetch and the presentation of a word to the core (spec/10_state.md R18, 20_memory.md R40,
70_reset_and_hazards.md R106, R109). -/

namespace Sys2Proof.Machine

/-- The memory that fetch reads: the data memory while stores are seen by fetches, else instruction memory as the host
loaded it (R40, R109; log 7). -/
def State.fetchMem (s : State) : Memory := if s.smc then s.mem else s.code

/-- The word the host fetches at the PC, in the byte order of R32; `MEM_VALID_R` is the core's port and is not asked
(R25; log 9). -/
def fetchWord (s : State) : Word := s.fetchMem.readWord s.pc

/-- The state in which the host presents `w` to the core (R6, R7). -/
def State.present (s : State) (w : Word) : State := { s with word := w }

/-- A word stored where fetch reads it, at the PC (R106). -/
def State.loadFetched (s : State) (w : Word) : State :=
  if s.smc then { s with mem := s.mem.writeWord s.pc w } else { s with code := s.code.writeWord s.pc w }

end Sys2Proof.Machine
end

