-- ==== Sys2Proof/Machine/Step.lean ====
section
/-! DEFINITION. One step of the host loop around one dispatch (spec/00_scope.md R7, 10_state.md R18, 60_exceptions.md R93). -/

namespace Sys2Proof.Machine

/-- Dispatch(w): an unmatched word raises `EncodingFault`, a matched one runs its routine (R7, R86). -/
def dispatch (w : Word) (s : State) : Host.Outcome State Fault Refusal :=
  match decode w with
  | .ok i => exec i (s.present w)
  | .error _ => raise .encoding (s.present w)

/-- One step: nothing runs after a recorded fault (R93); a misaligned PC stops the model (log 10); else the host fetches one
word and the core dispatches it. -/
def step (s : State) : Host.Outcome State Fault Refusal :=
  match s.fault with
  | some r => .fault (.stopped r)
  | none => if aligned s.pc then dispatch (fetchWord s) s else .fault (.fetchMisaligned s.pc)

/-- `s` with the instruction whose bits are `w` (the bits above `nbits` zero) stored where the next step fetches it; nothing
else changes (log 11). -/
def State.withFetchWord (s : State) (nbits w : Nat) : State := s.loadFetched (BitVec.ofNat 32 (w % 2 ^ nbits))

end Sys2Proof.Machine
end

