-- ==== Sys2Proof/Safety.lean ====
section
/-! DEFINITION. What counts as a good run, and the words the statements use: runs of instructions, the end of a run
(spec/70_reset_and_hazards.md R112), frames, and the machine's invariant. -/

namespace Sys2Proof.Machine

/-! ## Runs -/

/-- Instructions run one after the other, as their dispatches are (R37, R107); no fetch. -/
def execAll : List Instr → State → Host.Outcome State Fault Refusal
  | [], s => .next s
  | i :: rest, s =>
    match exec i s with
    | .next s' => execAll rest s'
    | .fault f => .fault f
    | .refused r => .refused r

/-- How a run of at most so many steps stands (R112, D26). -/
inductive RunEnd where
  /-- Fault free, and the PC is `END_PC`: the good end. -/
  | ended (s : State)
  /-- A dispatch faulted: the run stopped in the recorded faulted state, never a good end. -/
  | faulted (r : FaultRecord) (s : State)
  /-- The model stops without a fault record (a misaligned PC). -/
  | stuck (f : Fault) (s : State)
  /-- A step was refused. -/
  | refused (r : Refusal) (s : State)
  /-- The bound was reached first. -/
  | running (s : State)
deriving DecidableEq, Repr

/-- A run to `END_PC` (R112: a parameter of the run; log 25): it ends at the first fault or when the PC equals `endPc`. -/
def runUntil (endPc : Word) : Nat → State → RunEnd
  | n, s =>
    match s.fault with
    | some r => .faulted r s
    | none =>
      if s.pc = endPc then .ended s
      else
        match n with
        | 0 => .running s
        | n + 1 =>
          match step s with
          | .next s' => runUntil endPc n s'
          | .fault f => .stuck f s
          | .refused r => .refused r s

/-! ## Frames -/

/-- Everything the host alone sets is the same: instruction memory, `SMC`, the memory map, and the word presented. -/
def SameHost (s t : State) : Prop :=
  t.code = s.code ∧ t.smc = s.smc ∧ t.memMap = s.memMap ∧ t.word = s.word

/-- Every general register reads the same. -/
def SameRegs (s t : State) : Prop := ∀ r : RegIdx, t.reg r = s.reg r

/-- Every byte of data memory reads the same. -/
def SameMem (s t : State) : Prop := ∀ a : Nat, t.mem.readByte a = s.mem.readByte a

/-- The only register that reads differently is `rd`, which reads `v`, unless it is index 0, which reads 0 as before
(R15). -/
def RegisterWritten (rd : RegIdx) (v : Word) (s t : State) : Prop :=
  t.reg 0 = 0 ∧ ∀ r : RegIdx, t.reg r = if r = rd ∧ r ≠ 0 then v else s.reg r

/-- Done, with `rd` written with `v` and the PC advanced, and nothing else changed. -/
def OnlyRegister (rd : RegIdx) (v : Word) (s t : State) : Prop :=
  RegisterWritten rd v s t ∧ t.pc = s.pc + 4 ∧ t.cnt = s.cnt ∧ SameMem s t ∧ SameHost s t ∧ t.fault = s.fault

/-- Byte address `a` is one of the four bytes of the word at `w`. -/
def inWord (w : Word) (a : Nat) : Prop := a = byteAddr w 0 ∨ a = byteAddr w 1 ∨ a = byteAddr w 2 ∨ a = byteAddr w 3

/-- The word at `a` reads `v`, and every byte outside it reads as before. -/
def StoredOnly (a v : Word) (s t : State) : Prop :=
  t.mem.readWord a = v ∧ ∀ b : Nat, ¬ inWord a b → t.mem.readByte b = s.mem.readByte b

/-- The state after a fault of a dispatch that did nothing else: the record of R84, with the word and `pc_in` (R17) of the
dispatch, and everything else as it was. -/
def faultedAt (s : State) (k : FaultKind) (code : Nat) : State :=
  { s with fault := some { kind := k, code := code, word := s.word, pc := s.pc + 4 } }

/-! ## The invariant -/

/-- The record is that of a fault of the dispatch at this state's PC (R84, R87, R93). -/
def RecordOk (s : State) (r : FaultRecord) : Prop :=
  r.code = faultCode r.kind ∧ r.word = s.word ∧ r.pc = s.pc + 4 ∧
    match r.kind with
    | .address _ a .misaligned => aligned a = false
    | .address .load a .outOfRange => aligned a = true ∧ s.validR a = false
    | .address .store a .outOfRange => aligned a = true ∧ s.validW a = false
    | _ => True

/-- What every step keeps: both memories in canonical form, the PC a multiple of 4 (R18), and any recorded fault the record
of the dispatch at the PC. -/
def State.Inv (s : State) : Prop :=
  s.mem.wf = true ∧ s.code.wf = true ∧ aligned s.pc = true ∧ ∀ r, s.fault = some r → RecordOk s r

end Sys2Proof.Machine
end

