-- ==== Sys2Proof/Certificates/Slice0/Obligations.lean ====
section
/-! DEFINITION. The statements for the provers. What several of them rest on and the spec itself marks as a decision: the
PC advances by 4 and a hop has no delay slot (D6), `pc_in` is the PC plus 4 (D5, log 14), index 0 is hard-wired (D4, log
13), the fault codes (D16, log 16), the fault answer as a next state that holds the record (log 1). Such statements have
basis 'derived'. A premise that a memory is in canonical form is a clause of `State.Inv`, which `StepKeepsInvariant` says
every step keeps. -/

open Sys2Proof Sys2Proof.Machine

/-! ## Encoding -/

/-- R49: a word fits an entry exactly when it agrees with the entry's match at every fixed bit, a bit set in its mask; a match
sets no bit outside the mask. -/
def Obligations.FittingIsAgreementOnFixedBits : Prop :=
  ∀ sp : InstructionSpec,
    (sp.matchInMask = true ↔ ∀ k < 32, sp.mask.getLsbD k = false → sp.matchBits.getLsbD k = false) ∧
      (sp.matchInMask = true → ∀ w : Word,
        sp.fits w = true ↔ ∀ k < 32, sp.mask.getLsbD k = true → w.getLsbD k = sp.matchBits.getLsbD k)

/-- R51: lookup answers the one entry a word fits, and NotFound where it fits none; in a partition no word fits two. -/
def Obligations.LookupAnswersTheOnlyHit : Prop :=
  ∀ c : List InstructionSpec, partitioned c = true → ∀ w : Word,
    (c.filter (·.fits w)).length ≤ 1 ∧
      ((∀ sp ∈ c, sp.fits w = false) ↔ lookupIn c w = none) ∧
      ∀ sp, lookupIn c w = some sp ↔ sp ∈ c ∧ sp.fits w = true

/-- R52, R105: registering an entry fails exactly when its fixed bits collide with a registered entry's; a list can be
constructed exactly when it is a partition; the default catalog (D2, log 12) can. -/
def Obligations.ConstructionFailsExactlyOnCollision : Prop :=
  (∀ (c : List InstructionSpec) (sp : InstructionSpec), (∃ e, register c sp = .error e) ↔
      ∃ old ∈ c, (sp.matchBits ^^^ old.matchBits) &&& sp.mask &&& old.mask = 0) ∧
    (∀ c : List InstructionSpec, registerAll [] c = .ok c ↔ partitioned c = true) ∧
    registerAll [] catalog = .ok catalog

/-- Decode and encode agree, under every catalog that keeps the rules of R45, R49, R50 and R52, for every instruction it
encodes, and under the default catalog for every instruction. -/
def Obligations.DecodeOfEncodeIsTheInstruction : Prop :=
  (∀ c : List InstructionSpec, catalogWellFormed c = true → ∀ (i : Instr) (w : Word),
      encodeIn c i = some w → decodeIn c w = .ok i) ∧
    ∀ i : Instr, decode (encode i) = .ok i

/-- R48 (D3, log 21): a word's meaning depends on its used bits alone, and encoding what was decoded gives those bits back
with every unused bit 0 (R56). -/
def Obligations.UnusedBitsAreIgnored : Prop :=
  ∀ (w : Word) (i : Instr), decode w = .ok i →
    encode i = w &&& usedBits i.routine ∧
      ∀ w' : Word, w' &&& usedBits i.routine = w &&& usedBits i.routine → decode w' = .ok i

/-- R54, under the default catalog (D2, log 12): exactly these words are illegal, and each is reported as itself. -/
def Obligations.IllegalWordsAreThoseOfTheOpcodeMap : Prop :=
  ∀ w : Word, (decode w = .error (.notFound w) ↔
      (opcodeOf w = 0 ∧
        (functOf w ∉ ([0x1A, 0x20, 0x22, 0x24, 0x25, 0x26, 0x27, 0x28, 0x30, 0x31] : List (BitVec 6)) ∨
          (functOf w = 0x30 ∧ 4 ≤ (shamtOf w).toNat) ∨ (functOf w = 0x31 ∧ 2 ≤ (shamtOf w).toNat))) ∨
      opcodeOf w ∉ ([0x00, 0x02, 0x08, 0x23, 0x27, 0x2B, 0x2F, 0x3F] : List (BitVec 6))) ∧
    ∀ e, decode w = .error e → e = .notFound w

/-- The bytes of a word at rising addresses, least significant first (R32, D14, log 15), decode as the word does, and the
bytes after it are left; fewer than four bytes are no instruction (R41). -/
def Obligations.BytesDecodeAsTheirWord : Prop :=
  (∀ (w : Word) (rest : List Byte),
      decodeBytes ([byteOfWord w 0, byteOfWord w 1, byteOfWord w 2, byteOfWord w 3] ++ rest) =
        (decode w).map (fun i => (i, rest))) ∧
    ∀ bs : List Byte, bs.length < 4 → decodeBytes bs = .error (.shortInput bs.length)

/-- Words written out in the spec's examples decode to the instructions they stand for (D2, log 12). -/
def Obligations.ExampleWordsDecode : Prop :=
  decode 0x00221820 = .ok (.craft 3 1 2) ∧ decode 0x2022FFFF = .ok (.move 2 1 0xFFFF) ∧
    decode 0xAC220004 = .ok (.chest 2 1 4) ∧ decode 0x9C230000 = .ok (.breakBlock 3 1 0) ∧
    decode 0x08100004 = .ok (.hop 0x0100004) ∧ decode 0x00201870 = .ok (.weakness 3 1) ∧
    decode 0x00001831 = .ok (.summon 3) ∧ decode 0x0000F871 = .ok .reset

/-- R57 (D22, D24, log 24): the described catalog lists the 21 instructions of R53 in its order, each with its operand
pattern of R55; craft's effect text is the one R57 quotes. -/
def Obligations.DescribeListsTheCatalog : Prop :=
  describeAll.map (·.mnemonic) = ["craft", "punch", "stack", "fletch", "move", "chest", "enchant", "split", "hop", "torch",
      "strength", "weakness", "speed", "slowness", "summon", "build", "break", "redstone", "creeper", "farm", "reset"] ∧
    describeAll.map (·.operands) = ["craft $rd, $rs, $rt", "punch $rd, $rs, $rt", "stack $rd, $rs, $rt",
      "fletch $rd, $rs, $rt", "move $rt, $rs, imm", "chest $rt, imm($rs)", "enchant $rt, imm($rs)",
      "split $rd, $rs, $rt", "hop target", "torch $rd, $rs", "strength $rd, $rs", "weakness $rd, $rs",
      "speed $rd, $rs", "slowness $rd, $rs", "summon $rd", "build $rt, imm($rs)", "break $rt, imm($rs)",
      "redstone $rd, $rs", "creeper imm($rs)", "farm $rd, $rs", "reset"] ∧
    describe (catalogRow .craft) =
      ⟨"craft", "craft $rd, $rs, $rt", "rd = rs + rt, 32-bit two's-complement"⟩

/-! ## The ports and the memory -/

/-- R15 (D4, log 13): index 0 reads 0 and a write to it has no effect; a write to any other register is read back there
and nowhere else. -/
def Obligations.RegisterPortHardwiresZero : Prop :=
  ∀ (s : State) (r r' : RegIdx) (v : Word),
    s.reg 0 = 0 ∧ s.setReg 0 v = s ∧ (s.setReg r v).reg r' = (if r' = r ∧ r ≠ 0 then v else s.reg r')

/-- R27 (D13, log 29): the effective address is base plus signed offset modulo 2^32. R28: aligned means a multiple
of 4. -/
def Obligations.EffectiveAddressWraps : Prop :=
  ∀ (s : State) (rs : RegIdx) (imm : Imm16) (a : Word),
    s.ea rs imm = BitVec.ofInt 32 ((s.reg rs).toNat + imm.toInt) ∧ (aligned a = true ↔ a.toNat % 4 = 0)

/-- R34: a load has no side effect on memory, a store changes only the addressed word, a word read again is the same word,
and a word stored is the word loaded. -/
def Obligations.MemoryIsPlainStorage : Prop :=
  (∀ (s : State) (a v : Word), s.mem.wf = true → aligned a = true → s.validW a = true → s.validR a = true →
      ∃ t, memWrite s a v = .ok t ∧ memRead t a = .ok v ∧
        ∀ b, ¬ inWord a b → t.mem.readByte b = s.mem.readByte b) ∧
    ∀ (s t : State) (rt rs : RegIdx) (imm : Imm16), exec (.enchant rt rs imm) s = .next t →
      SameMem s t ∧ ∀ a : Word, memRead t a = memRead s a

/-- The memory's form (the model's own, log 5): two memories in canonical form that read the same everywhere are the same
data. -/
def Obligations.EqualBytesMeanEqualMemories : Prop :=
  ∀ m m' : Memory, m.wf = true → m'.wf = true → (∀ a, m.readByte a = m'.readByte a) → m = m'

/-! ## Arithmetic -/

/-- craft, punch and move whose exact signed result is a 32-bit number write it and do nothing else (R58 to R61). -/
def Obligations.CheckedArithmeticCompletesInRange : Prop :=
  ∀ (s : State) (rd rs rt : RegIdx) (imm : Imm16),
    (-2 ^ 31 ≤ (s.reg rs).toInt + (s.reg rt).toInt → (s.reg rs).toInt + (s.reg rt).toInt < 2 ^ 31 →
      ∃ t v, exec (.craft rd rs rt) s = .next t ∧ v.toInt = (s.reg rs).toInt + (s.reg rt).toInt ∧
        OnlyRegister rd v s t) ∧
    (-2 ^ 31 ≤ (s.reg rs).toInt - (s.reg rt).toInt → (s.reg rs).toInt - (s.reg rt).toInt < 2 ^ 31 →
      ∃ t v, exec (.punch rd rs rt) s = .next t ∧ v.toInt = (s.reg rs).toInt - (s.reg rt).toInt ∧
        OnlyRegister rd v s t) ∧
    (-2 ^ 31 ≤ (s.reg rs).toInt + imm.toInt → (s.reg rs).toInt + imm.toInt < 2 ^ 31 →
      ∃ t v, exec (.move rt rs imm) s = .next t ∧ v.toInt = (s.reg rs).toInt + imm.toInt ∧
        OnlyRegister rt v s t)

/-- craft, punch and move whose exact signed result is no 32-bit number fault, and nothing but the record changes (R85,
R88; code 12 is D16, log 16). -/
def Obligations.CheckedArithmeticFaultsOutOfRange : Prop :=
  ∀ (s : State) (rd rs rt : RegIdx) (imm : Imm16),
    ((s.reg rs).toInt + (s.reg rt).toInt < -2 ^ 31 ∨ 2 ^ 31 ≤ (s.reg rs).toInt + (s.reg rt).toInt →
      exec (.craft rd rs rt) s = .next (faultedAt s .arithmeticOverflow 12)) ∧
    ((s.reg rs).toInt - (s.reg rt).toInt < -2 ^ 31 ∨ 2 ^ 31 ≤ (s.reg rs).toInt - (s.reg rt).toInt →
      exec (.punch rd rs rt) s = .next (faultedAt s .arithmeticOverflow 12)) ∧
    ((s.reg rs).toInt + imm.toInt < -2 ^ 31 ∨ 2 ^ 31 ≤ (s.reg rs).toInt + imm.toInt →
      exec (.move rt rs imm) s = .next (faultedAt s .arithmeticOverflow 12))

/-- split by a divisor that is not 0 writes the quotient truncated toward zero: the remainder is smaller than the divisor
and has the dividend's sign. −2^31 by −1 gives 0x80000000 (D8, log 17) (R62). -/
def Obligations.SplitTruncatesTowardZero : Prop :=
  ∀ (s : State) (rd rs rt : RegIdx), s.reg rt ≠ 0 →
    ∃ t v, exec (.split rd rs rt) s = .next t ∧ OnlyRegister rd v s t ∧
      (s.reg rs = 0x80000000 ∧ s.reg rt = 0xFFFFFFFF → v = 0x80000000) ∧
      (¬ (s.reg rs = 0x80000000 ∧ s.reg rt = 0xFFFFFFFF) →
        ∃ r : Int, (s.reg rs).toInt = v.toInt * (s.reg rt).toInt + r ∧ |r| < |(s.reg rt).toInt| ∧
          0 ≤ r * (s.reg rs).toInt)

/-- split by 0 faults and nothing but the record changes (R62, R89; D7, D16, log 16, log 17). -/
def Obligations.SplitByZeroFaults : Prop :=
  ∀ (s : State) (rd rs rt : RegIdx), s.reg rt = 0 →
    exec (.split rd rs rt) s = .next (faultedAt s .divideByZero 15)

/-- punch takes back what a craft that did not fault added (R60). -/
def Obligations.PunchUndoesCraft : Prop :=
  ∀ (s t : State) (rd rs rt rd' : RegIdx), rd ≠ 0 → rd ≠ rt → s.fault = none →
    exec (.craft rd rs rt) s = .next t → t.fault = none →
      ∃ u, exec (.punch rd' rd rt) t = .next u ∧ OnlyRegister rd' (s.reg rs) t u

/-! ## Logic and the thematic operations -/

/-- The encodings of stack and fletch, and their results bit by bit, with no fault (R63, R64). The encodings are the
default table's (D2, log 12) with the shamt field ignored (D3, log 21), and that no fault is raised is said as no change of
the record (log 1). A destination that is not index 0 is asked for here;
`SingleResultInstructionsOnlyWriteTheirRegister` covers index 0. -/
def Obligations.LogicalResultsBitByBit : Prop :=
  (∀ w : Word, opcodeOf w = 0 → functOf w = 0x24 → decode w = .ok (.stack (rdOf w) (rsOf w) (rtOf w))) ∧
    (∀ w : Word, opcodeOf w = 0 → functOf w = 0x25 → decode w = .ok (.fletch (rdOf w) (rsOf w) (rtOf w))) ∧
    ∀ (s : State) (rd rs rt : RegIdx),
      (∃ t, exec (.stack rd rs rt) s = .next t ∧ t.fault = s.fault ∧ (rd ≠ 0 → ∀ k < 32,
        (t.reg rd).getLsbD k = ((s.reg rs).getLsbD k && (s.reg rt).getLsbD k))) ∧
      ∃ t, exec (.fletch rd rs rt) s = .next t ∧ t.fault = s.fault ∧ (rd ≠ 0 → ∀ k < 32,
        (t.reg rd).getLsbD k = ((s.reg rs).getLsbD k || (s.reg rt).getLsbD k))

/-- The encodings of the seven thematic ALU operations, and their results: no fault, and wrapping where the sum leaves the
range (R69 to R75). The encodings and shamt groups are the default table's (D2, log 12) with the rt field, and shamt outside
the groups, ignored (D3, log 21), and that no fault is raised is said as no change of the record (log 1). A destination that
is not index 0 is asked for here; `SingleResultInstructionsOnlyWriteTheirRegister` covers index 0. -/
def Obligations.ThematicResultsWrapSilently : Prop :=
  (∀ w : Word, opcodeOf w = 0 →
      (functOf w = 0x27 → decode w = .ok (.torch (rdOf w) (rsOf w))) ∧
      (functOf w = 0x30 → shamtOf w = 0 → decode w = .ok (.strength (rdOf w) (rsOf w))) ∧
      (functOf w = 0x30 → shamtOf w = 1 → decode w = .ok (.weakness (rdOf w) (rsOf w))) ∧
      (functOf w = 0x30 → shamtOf w = 2 → decode w = .ok (.speed (rdOf w) (rsOf w))) ∧
      (functOf w = 0x30 → shamtOf w = 3 → decode w = .ok (.slowness (rdOf w) (rsOf w))) ∧
      (functOf w = 0x26 → decode w = .ok (.redstone (rdOf w) (rsOf w))) ∧
      (functOf w = 0x28 → decode w = .ok (.farm (rdOf w) (rsOf w)))) ∧
    ∀ (s : State) (rd rs : RegIdx),
      (∃ t, exec (.torch rd rs) s = .next t ∧ t.fault = s.fault ∧
        (rd ≠ 0 → ∀ k < 32, (t.reg rd).getLsbD k = !(s.reg rs).getLsbD k)) ∧
      (∃ t, exec (.strength rd rs) s = .next t ∧ t.fault = s.fault ∧
        (rd ≠ 0 → t.reg rd = BitVec.ofInt 32 (2 * (s.reg rs).toInt))) ∧
      (∃ t, exec (.weakness rd rs) s = .next t ∧ t.fault = s.fault ∧
        (rd ≠ 0 → 2 * (t.reg rd).toInt ≤ (s.reg rs).toInt ∧ (s.reg rs).toInt < 2 * (t.reg rd).toInt + 2)) ∧
      (∃ t, exec (.speed rd rs) s = .next t ∧ t.fault = s.fault ∧
        (rd ≠ 0 → t.reg rd = BitVec.ofInt 32 ((s.reg rs).toInt + 5))) ∧
      (∃ t, exec (.slowness rd rs) s = .next t ∧ t.fault = s.fault ∧
        (rd ≠ 0 → t.reg rd = BitVec.ofInt 32 ((s.reg rs).toInt - 5))) ∧
      (∃ t, exec (.redstone rd rs) s = .next t ∧ t.fault = s.fault ∧
        (rd ≠ 0 → (t.reg rd).getLsbD 0 = (!(s.reg rs).getLsbD 0) ∧
          ∀ k < 32, k ≠ 0 → (t.reg rd).getLsbD k = (s.reg rs).getLsbD k)) ∧
      ∃ t, exec (.farm rd rs) s = .next t ∧ t.fault = s.fault ∧
        (rd ≠ 0 → t.reg rd = BitVec.ofInt 32 ((s.reg rs).toInt + 1))

/-- The frame of stack, fletch, torch, strength, weakness, speed, slowness, redstone and farm: the destination is written
(index 0 is not, D4, log 13), the PC advances by 4 (D6), and nothing else changes (R16). -/
def Obligations.SingleResultInstructionsOnlyWriteTheirRegister : Prop :=
  ∀ (s : State) (rd rs rt : RegIdx),
    (∃ t, exec (.stack rd rs rt) s = .next t ∧ OnlyRegister rd (s.reg rs &&& s.reg rt) s t) ∧
    (∃ t, exec (.fletch rd rs rt) s = .next t ∧ OnlyRegister rd (s.reg rs ||| s.reg rt) s t) ∧
    (∃ t, exec (.torch rd rs) s = .next t ∧ OnlyRegister rd (~~~(s.reg rs)) s t) ∧
    (∃ t, exec (.strength rd rs) s = .next t ∧ OnlyRegister rd (s.reg rs + s.reg rs) s t) ∧
    (∃ t, exec (.weakness rd rs) s = .next t ∧
      OnlyRegister rd (BitVec.ofInt 32 ((s.reg rs).toInt / 2)) s t) ∧
    (∃ t, exec (.speed rd rs) s = .next t ∧ OnlyRegister rd (s.reg rs + 5) s t) ∧
    (∃ t, exec (.slowness rd rs) s = .next t ∧ OnlyRegister rd (s.reg rs - 5) s t) ∧
    (∃ t, exec (.redstone rd rs) s = .next t ∧ OnlyRegister rd (s.reg rs ^^^ 1) s t) ∧
    ∃ t, exec (.farm rd rs) s = .next t ∧ OnlyRegister rd (s.reg rs + 1) s t

/-- torch and redstone applied twice give the first value back (R69, R74), through any register that is not index 0. -/
def Obligations.TorchAndRedstoneUndoThemselves : Prop :=
  ∀ (s : State) (rd rs rd' : RegIdx), rd ≠ 0 →
    (∃ t u, exec (.torch rd rs) s = .next t ∧ exec (.torch rd' rd) t = .next u ∧ OnlyRegister rd' (s.reg rs) t u) ∧
    ∃ t u, exec (.redstone rd rs) s = .next t ∧ exec (.redstone rd' rd) t = .next u ∧
      OnlyRegister rd' (s.reg rs) t u

/-! ## Memory instructions -/

/-- chest and build at an aligned, writable address store x[rt] there, advance the PC (D6), and change nothing else (R65,
R76). -/
def Obligations.StoresWriteOneWord : Prop :=
  ∀ (s : State) (rt rs : RegIdx) (imm : Imm16), s.mem.wf = true → aligned (s.ea rs imm) = true →
    s.validW (s.ea rs imm) = true →
      (∃ t, exec (.chest rt rs imm) s = .next t ∧ StoredOnly (s.ea rs imm) (s.reg rt) s t ∧ SameRegs s t ∧
        t.pc = s.pc + 4 ∧ t.cnt = s.cnt ∧ SameHost s t ∧ t.fault = s.fault) ∧
      ∃ t, exec (.build rt rs imm) s = .next t ∧ StoredOnly (s.ea rs imm) (s.reg rt) s t ∧ SameRegs s t ∧
        t.pc = s.pc + 4 ∧ t.cnt = s.cnt ∧ SameHost s t ∧ t.fault = s.fault

/-- enchant at an aligned, readable address loads the word there into x[rt] and changes nothing else (R66). -/
def Obligations.EnchantLoadsTheWord : Prop :=
  ∀ (s : State) (rt rs : RegIdx) (imm : Imm16), aligned (s.ea rs imm) = true → s.validR (s.ea rs imm) = true →
    ∃ t, exec (.enchant rt rs imm) s = .next t ∧ OnlyRegister rt (s.mem.readWord (s.ea rs imm)) s t

/-- chest, build and enchant at a misaligned address fault as Misaligned, and at an aligned one outside the host's valid
range as OutOfRange; nothing but the record changes (R28 to R31, R87, R88, R90; codes D16, log 16). -/
def Obligations.StoreAndLoadFaultsArePrecise : Prop :=
  ∀ (s : State) (rt rs : RegIdx) (imm : Imm16),
    (aligned (s.ea rs imm) = false →
      exec (.chest rt rs imm) s = .next (faultedAt s (.address .store (s.ea rs imm) .misaligned) 5) ∧
      exec (.build rt rs imm) s = .next (faultedAt s (.address .store (s.ea rs imm) .misaligned) 5) ∧
      exec (.enchant rt rs imm) s = .next (faultedAt s (.address .load (s.ea rs imm) .misaligned) 4)) ∧
    (aligned (s.ea rs imm) = true → s.validW (s.ea rs imm) = false →
      exec (.chest rt rs imm) s = .next (faultedAt s (.address .store (s.ea rs imm) .outOfRange) 5) ∧
      exec (.build rt rs imm) s = .next (faultedAt s (.address .store (s.ea rs imm) .outOfRange) 5)) ∧
    (aligned (s.ea rs imm) = true → s.validR (s.ea rs imm) = false →
      exec (.enchant rt rs imm) s = .next (faultedAt s (.address .load (s.ea rs imm) .outOfRange) 4))

/-- A word stored by chest or build is the word enchant loads from the same address, through the same base register
(R34, R65, R66, R76). -/
def Obligations.StoreThenLoadRoundTrip : Prop :=
  ∀ (s t : State) (rt rs rt' : RegIdx) (imm : Imm16), s.mem.wf = true → s.fault = none →
    s.validR (s.ea rs imm) = true → (exec (.chest rt rs imm) s = .next t ∨ exec (.build rt rs imm) s = .next t) →
      t.fault = none → ∃ u, exec (.enchant rt' rs imm) t = .next u ∧ OnlyRegister rt' (s.reg rt) t u

/-- break at an aligned address that may be read and written loads the word into x[rt] and zeroes it, and changes nothing
else (R77; destination and offset are D10, log 19). -/
def Obligations.BreakTakesTheWord : Prop :=
  ∀ (s : State) (rt rs : RegIdx) (imm : Imm16), s.mem.wf = true → aligned (s.ea rs imm) = true →
    s.validR (s.ea rs imm) = true → s.validW (s.ea rs imm) = true →
      ∃ t, exec (.breakBlock rt rs imm) s = .next t ∧ RegisterWritten rt (s.mem.readWord (s.ea rs imm)) s t ∧
        StoredOnly (s.ea rs imm) 0 s t ∧ t.pc = s.pc + 4 ∧ t.cnt = s.cnt ∧ SameHost s t ∧ t.fault = s.fault

/-- break that may not read its word changes nothing but the record; break that may read but not write it keeps x[rt]
written and nothing else changed (R77, R88, R90; D10, D16, log 16, log 19). -/
def Obligations.BreakFaultsKeepTheLoadedRegister : Prop :=
  ∀ (s : State) (rt rs : RegIdx) (imm : Imm16),
    (aligned (s.ea rs imm) = false →
      exec (.breakBlock rt rs imm) s = .next (faultedAt s (.address .load (s.ea rs imm) .misaligned) 4)) ∧
    (aligned (s.ea rs imm) = true → s.validR (s.ea rs imm) = false →
      exec (.breakBlock rt rs imm) s = .next (faultedAt s (.address .load (s.ea rs imm) .outOfRange) 4)) ∧
    (aligned (s.ea rs imm) = true → s.validR (s.ea rs imm) = true → s.validW (s.ea rs imm) = false →
      ∃ t, exec (.breakBlock rt rs imm) s = .next t ∧ RegisterWritten rt (s.mem.readWord (s.ea rs imm)) s t ∧
        t = { faultedAt s (.address .store (s.ea rs imm) .outOfRange) 5 with regs := t.regs })

/-- A second break of the same word, through a base register the first left alone, loads 0 and leaves memory as it is
(R77; an index 0 destination is discarded, D4, log 13). -/
def Obligations.SecondBreakLoadsZero : Prop :=
  ∀ (s t : State) (rt rs rt' : RegIdx) (imm : Imm16), s.mem.wf = true → (rt ≠ rs ∨ rt = 0) →
    s.fault = none → exec (.breakBlock rt rs imm) s = .next t → t.fault = none →
      ∃ u, exec (.breakBlock rt' rs imm) t = .next u ∧ OnlyRegister rt' 0 t u

/-- creeper with an offset that is not negative, every word of its run aligned and writable: exactly the words from x[rs] to
x[rs] plus the offset are zeroed, addresses modulo 2^32, and nothing else changes (R78; the reading is D9, log 18). -/
def Obligations.CreeperZeroesExactlyItsRange : Prop :=
  ∀ (s : State) (rs : RegIdx) (imm : Imm16), s.mem.wf = true → 0 ≤ imm.toInt →
    (∀ k : Nat, 4 * (k : Int) ≤ imm.toInt → aligned (s.reg rs + BitVec.ofNat 32 (4 * k)) = true ∧
      s.validW (s.reg rs + BitVec.ofNat 32 (4 * k)) = true) →
    ∃ t, exec (.creeper rs imm) s = .next t ∧
      (∀ k : Nat, 4 * (k : Int) ≤ imm.toInt → t.mem.readWord (s.reg rs + BitVec.ofNat 32 (4 * k)) = 0) ∧
      (∀ b, (∀ k : Nat, 4 * (k : Int) ≤ imm.toInt → ¬ inWord (s.reg rs + BitVec.ofNat 32 (4 * k)) b) →
        t.mem.readByte b = s.mem.readByte b) ∧
      SameRegs s t ∧ t.pc = s.pc + 4 ∧ t.cnt = s.cnt ∧ SameHost s t ∧ t.fault = s.fault

/-- creeper with a negative offset does nothing and does not fault, even from a misaligned start (R78; D9, log 18). -/
def Obligations.CreeperBackwardsDoesNothing : Prop :=
  ∀ (s : State) (rs : RegIdx) (imm : Imm16), imm.toInt < 0 →
    exec (.creeper rs imm) s = .next { s with pc := s.pc + 4 }

/-- creeper from a misaligned start faults at once and changes nothing but the record; from an aligned start it faults at the
first word that is not writable, and the words before it stay zeroed, nothing else changed (R78, R87, R88, R90; D9, D16,
log 16, log 18). -/
def Obligations.CreeperFaultKeepsEarlierZeroes : Prop :=
  ∀ (s : State) (rs : RegIdx) (imm : Imm16),
    (0 ≤ imm.toInt → aligned (s.reg rs) = false →
      exec (.creeper rs imm) s = .next (faultedAt s (.address .store (s.reg rs) .misaligned) 5)) ∧
    ∀ j : Nat, s.mem.wf = true → aligned (s.reg rs) = true → 4 * (j : Int) ≤ imm.toInt →
      (∀ k < j, s.validW (s.reg rs + BitVec.ofNat 32 (4 * k)) = true) →
      s.validW (s.reg rs + BitVec.ofNat 32 (4 * j)) = false →
        ∃ t, exec (.creeper rs imm) s = .next t ∧
          (∀ k < j, t.mem.readWord (s.reg rs + BitVec.ofNat 32 (4 * k)) = 0) ∧
          (∀ b, (∀ k < j, ¬ inWord (s.reg rs + BitVec.ofNat 32 (4 * k)) b) → t.mem.readByte b = s.mem.readByte b) ∧
          t = { faultedAt s (.address .store (s.reg rs + BitVec.ofNat 32 (4 * j)) .outOfRange) 5 with mem := t.mem }

/-! ## Control flow and the counter -/

/-- hop sets the PC to bits 31..28 of `pc_in`, the 26-bit target, and two zero bits, and changes nothing else; the target is
aligned (R67, R68; `pc_in` is the PC plus 4 by D5, log 14). -/
def Obligations.HopJoinsRegionAndTarget : Prop :=
  ∀ (s : State) (target : Target26),
    exec (.hop target) s = .next { s with pc := ((s.pc + 4).extractLsb' 28 4 ++ target ++ (0 : BitVec 2) : BitVec 32) } ∧
      ∀ t, exec (.hop target) s = .next t → aligned t.pc = true

/-- summon adds 1 to the counter modulo 2^32 and writes the new value to its register; reset clears the counter; nothing
else changes but the PC (R80, R81; D6, D11, log 20). -/
def Obligations.CounterInstructionsComplete : Prop :=
  ∀ (s : State) (rd : RegIdx),
    (∃ t, exec (.summon rd) s = .next t ∧ t.cnt = s.cnt + 1 ∧ RegisterWritten rd (s.cnt + 1) s t ∧ t.pc = s.pc + 4 ∧
      SameMem s t ∧ SameHost s t ∧ t.fault = s.fault) ∧
    exec .reset s = .next { s with cnt := 0, pc := s.pc + 4 }

/-- Any summons, then a reset, then k more summons and one last: the last writes k + 1, modulo 2^32 (R82; the law for
every k is an inference the spec marks as its own). -/
def Obligations.SummonsAfterResetCountFromOne : Prop :=
  ∀ (s : State) (earlier later : List RegIdx) (rd : RegIdx),
    ∃ t, execAll (earlier.map .summon ++ [.reset] ++ later.map .summon ++ [.summon rd]) s = .next t ∧
      t.cnt = BitVec.ofNat 32 (later.length + 1) ∧ (rd ≠ 0 → t.reg rd = BitVec.ofNat 32 (later.length + 1)) ∧
      SameMem s t

/-- Only summon and reset write the counter, and only summon reads it: with another value in it, every other instruction has
the same outcome (R13, R82). -/
def Obligations.OnlySummonAndResetTouchTheCounter : Prop :=
  ∀ (i : Instr) (s t : State) (c : Word), (∀ rd, i ≠ .summon rd) → i ≠ .reset → exec i s = .next t →
    t.cnt = s.cnt ∧ exec i { s with cnt := c } = .next { t with cnt := c }

/-- Every instruction but hop leaves the PC to the sequential advance, or at itself where it faults (R18, R68, R93; D6,
D18). -/
def Obligations.OnlyHopLeavesTheSequence : Prop :=
  ∀ (i : Instr) (s t : State), s.fault = none → (∀ x, i ≠ .hop x) → exec i s = .next t →
    (t.fault = none → t.pc = s.pc + 4) ∧ (t.fault ≠ none → t.pc = s.pc)

/-! ## Faults and the step -/

/-- Every dispatch of an instruction ends, Done or with one fault record that holds its kind, its code, the word presented
and `pc_in` (R6, R83, R84; D5, D16, log 1, log 14, log 16). -/
def Obligations.EveryInstructionEndsDoneOrRecorded : Prop :=
  ∀ (i : Instr) (s : State), ∃ t, exec i s = .next t ∧
    (t.fault = s.fault ∨
      ∃ k, t.fault = some { kind := k, code := faultCode k, word := s.word, pc := s.pc + 4 } ∧ t.pc = s.pc)

/-- Which instruction raises which fault (R84 to R87, R89, R90), and the codes (D16, log 16). -/
def Obligations.EachFaultHasItsRaisers : Prop :=
  (∀ (i : Instr) (s t : State) (r : FaultRecord), s.fault = none → exec i s = .next t → t.fault = some r →
    match r.kind with
    | .encoding => False
    | .arithmeticOverflow => r.code = 12 ∧
        ((∃ rd rs rt, i = .craft rd rs rt) ∨ (∃ rd rs rt, i = .punch rd rs rt) ∨ ∃ rt rs imm, i = .move rt rs imm)
    | .divideByZero => r.code = 15 ∧ ∃ rd rs rt, i = .split rd rs rt
    | .address .load _ _ => r.code = 4 ∧
        ((∃ rt rs imm, i = .enchant rt rs imm) ∨ ∃ rt rs imm, i = .breakBlock rt rs imm)
    | .address .store _ _ => r.code = 5 ∧
        ((∃ rt rs imm, i = .chest rt rs imm) ∨ (∃ rt rs imm, i = .build rt rs imm) ∨
          (∃ rs imm, i = .creeper rs imm) ∨ ∃ rt rs imm, i = .breakBlock rt rs imm))

/-- A fault leaves the state as it was but for the record (log 1) and the partial effects of R88: break's destination, which
holds the word read where the write faulted and is unchanged where the read faulted; and, where creeper's word j faulted,
its words 0 to j - 1, which read 0, every byte outside them as before (D9, D10, log 18, log 19). -/
def Obligations.FaultsArePrecise : Prop :=
  ∀ (i : Instr) (s t : State) (r : FaultRecord), s.fault = none → exec i s = .next t → t.fault = some r →
    match i with
    | .breakBlock rt rs imm => t = { s with regs := t.regs, fault := some r } ∧
        (((∃ why, r.kind = .address .load (s.ea rs imm) why) ∧ t.regs = s.regs) ∨
          ((∃ why, r.kind = .address .store (s.ea rs imm) why) ∧
            RegisterWritten rt (s.mem.readWord (s.ea rs imm)) s t))
    | .creeper rs imm => t = { s with mem := t.mem, fault := some r } ∧ (s.mem.wf = true →
        ∃ j < creeperCount imm, (∃ why, r.kind = .address .store (s.reg rs + BitVec.ofNat 32 (4 * j)) why) ∧
          (∀ k < j, t.mem.readWord (s.reg rs + BitVec.ofNat 32 (4 * k)) = 0) ∧
          ∀ b, (∀ k < j, ¬ inWord (s.reg rs + BitVec.ofNat 32 (4 * k)) b) → t.mem.readByte b = s.mem.readByte b)
    | _ => t = { s with fault := some r }

/-- The steps of a dispatch (R7). An unmatched word gives an EncodingFault with that word and `pc_in`, and nothing else
changes (R86, R93); a matched one runs its routine on the extracted operands. That the fault answers a next state that holds
the record is log 1, the field that holds the word presented is log 8, and that the PC stays is log 27. -/
def Obligations.DispatchLooksUpExtractsExecutes : Prop :=
  ∀ (w : Word) (s : State),
    (lookup w = none → ∃ r, dispatch w s = .next { s with word := w, fault := some r } ∧ r.kind = .encoding ∧
      r.word = w ∧ r.pc = s.pcIn) ∧
    ∀ sp, lookup w = some sp → dispatch w s = exec (extract sp.routine w) { s with word := w }

/-- A step runs the decoded instruction: where no fault is recorded, the PC is aligned and the word there decodes to `i`, the
step is exec of `i` in the state with that word presented (R7). That the fetch asks nothing of the memory map is the model's
choice (log 9), and so is the field that holds the word presented (log 8). -/
def Obligations.StepRunsTheDecodedInstruction : Prop :=
  ∀ (s : State) (i : Instr), s.fault = none → aligned s.pc = true → decode (fetchWord s) = .ok i →
    step s = exec i { s with word := fetchWord s }

/-- A fetched word that fits no entry ends the dispatch in an EncodingFault that records it, with no other effect (R54, R86;
D16, D23, log 16). That the fetch asks nothing of the memory map is the model's choice (log 9); the field that holds the word
presented is log 8, and the next state that holds the record is log 1. -/
def Obligations.UnmatchedWordRecordsAnEncodingFault : Prop :=
  ∀ s : State, s.fault = none → aligned s.pc = true → decode (fetchWord s) = .error (.notFound (fetchWord s)) →
    step s = .next { s with
      word := fetchWord s
      fault := some { kind := .encoding, code := 10, word := fetchWord s, pc := s.pc + 4 } }

/-- A recorded fault stops the run: no step, and every bounded run ends there faulted, with the record (R93, R112; D18,
log 1, log 25, log 27). -/
def Obligations.RecordedFaultStopsTheRun : Prop :=
  ∀ (s : State) (r : FaultRecord), s.fault = some r →
    step s = .fault (.stopped r) ∧ ∀ (endPc : Word) (n : Nat), runUntil endPc n s = .faulted r s

/-- The model stops exactly at a recorded fault (R93; D18, log 1, log 27) and at a misaligned PC (the model's choice, log
10), and refuses nothing; that a fetch outside the memory map does not stop it is the model's choice (log 9). -/
def Obligations.StepStopsOnlyOnRecordOrMisalignedPc : Prop :=
  ∀ s : State, ((∃ f, step s = .fault f) ↔ s.fault ≠ none ∨ aligned s.pc = false) ∧ ∀ r, step s ≠ .refused r

/-- A run ends well only at `END_PC` with no fault recorded, and ends faulted only with the record its last state holds
(R112; D26, log 25). -/
def Obligations.GoodRunsEndAtEndPcWithoutFault : Prop :=
  ∀ (endPc : Word) (n : Nat) (s t : State),
    (runUntil endPc n s = .ended t → t.pc = endPc ∧ t.fault = none ∧ s.fault = none) ∧
      ∀ r, runUntil endPc n s = .faulted r t → t.fault = some r

/-- With `SMC` false no instruction changes what is fetched anywhere. With `SMC` true what is fetched anywhere after an
instruction is what data memory holds there; so the word stored by chest or build is fetched at its address, and 0 is fetched
where break or creeper zeroed a word (R40, R109; both values of `SMC` are open, log 7; the fetch asks nothing of the memory
map, log 9). -/
def Obligations.FetchSeesStoresExactlyUnderSmc : Prop :=
  (∀ (i : Instr) (s t : State), s.smc = false → exec i s = .next t →
      ∀ p : Word, fetchWord { t with pc := p } = fetchWord { s with pc := p }) ∧
    (∀ (i : Instr) (s t : State), s.smc = true → exec i s = .next t →
      ∀ p : Word, fetchWord { t with pc := p } = t.mem.readWord p) ∧
    (∀ (s : State) (rt rs : RegIdx) (imm : Imm16), s.mem.wf = true → s.smc = true → aligned (s.ea rs imm) = true →
      s.validW (s.ea rs imm) = true →
        (∃ t, exec (.chest rt rs imm) s = .next t ∧ fetchWord { t with pc := s.ea rs imm } = s.reg rt) ∧
        (∃ t, exec (.build rt rs imm) s = .next t ∧ fetchWord { t with pc := s.ea rs imm } = s.reg rt) ∧
        (s.validR (s.ea rs imm) = true →
          ∃ t, exec (.breakBlock rt rs imm) s = .next t ∧ fetchWord { t with pc := s.ea rs imm } = 0)) ∧
    ∀ (s : State) (rs : RegIdx) (imm : Imm16), s.mem.wf = true → s.smc = true → 0 ≤ imm.toInt →
      (∀ k : Nat, 4 * (k : Int) ≤ imm.toInt → aligned (s.reg rs + BitVec.ofNat 32 (4 * k)) = true ∧
        s.validW (s.reg rs + BitVec.ofNat 32 (4 * k)) = true) →
      ∃ t, exec (.creeper rs imm) s = .next t ∧ ∀ k : Nat, 4 * (k : Int) ≤ imm.toInt →
        fetchWord { t with pc := s.reg rs + BitVec.ofNat 32 (4 * k) } = 0

/-- No step changes what the host alone sets: instruction memory, `SMC`, `MEM_VALID_R` and `MEM_VALID_W` (R9). -/
def Obligations.StepNeverChangesTheHostParameters : Prop :=
  ∀ s t : State, step s = .next t → t.code = s.code ∧ t.smc = s.smc ∧ t.memMap = s.memMap

/-- A word placed by `withFetchWord` is the word the next step dispatches, in every state that may dispatch one (log 11; the
fetch asks nothing of the memory map, log 9). -/
def Obligations.PlacedWordIsDispatched : Prop :=
  ∀ (s : State) (nbits w : Nat), s.mem.wf = true → s.code.wf = true → s.fault = none → aligned s.pc = true →
    step (s.withFetchWord nbits w) = dispatch (BitVec.ofNat 32 (w % 2 ^ nbits)) (s.withFetchWord nbits w)

/-! ## The invariant -/

/-- Every step from a state that meets the invariant gives a state that meets it (R18, R84, R87, R93; the canonical form is
the model's own, log 5). -/
def Obligations.StepKeepsInvariant : Prop :=
  ∀ s t : State, s.Inv → step s = .next t → t.Inv

/-- The reset state meets the invariant (the entry PC is log 4). -/
def Obligations.ResetMeetsInvariant : Prop := State.reset.Inv

/-- What reset leaves: the counter and register 0 read 0 (R24, R103; D4, log 13). That no fault is recorded is the model's
(log 1, log 27): R93 records one only when a dispatch faults, and none has run. -/
def Obligations.ResetClearsTheCounter : Prop :=
  State.reset.cnt = 0 ∧ State.reset.reg 0 = 0 ∧ State.reset.fault = none
end

