-- ==== Sys2Proof/Laws/State.lean ====
section
/-! SUPPORT. Small lemmas of the state's updates: one per field per update, and the register port. -/

namespace Sys2Proof.Machine

section SetReg
variable (s : State) (r : RegIdx) (v : Word)

@[simp] theorem setReg_pc : (s.setReg r v).pc = s.pc := rfl
@[simp] theorem setReg_cnt : (s.setReg r v).cnt = s.cnt := rfl
@[simp] theorem setReg_mem : (s.setReg r v).mem = s.mem := rfl
@[simp] theorem setReg_code : (s.setReg r v).code = s.code := rfl
@[simp] theorem setReg_smc : (s.setReg r v).smc = s.smc := rfl
@[simp] theorem setReg_memMap : (s.setReg r v).memMap = s.memMap := rfl
@[simp] theorem setReg_word : (s.setReg r v).word = s.word := rfl
@[simp] theorem setReg_fault : (s.setReg r v).fault = s.fault := rfl
@[simp] theorem setReg_pcIn : (s.setReg r v).pcIn = s.pcIn := rfl
@[simp] theorem setReg_validR (a : Word) : (s.setReg r v).validR a = s.validR a := rfl
@[simp] theorem setReg_validW (a : Word) : (s.setReg r v).validW a = s.validW a := rfl

/-- A write to index 0 has no effect (R15). -/
@[simp] theorem setReg_zero : s.setReg 0 v = s := rfl

end SetReg

section Present
variable (s : State) (w : Word)

@[simp] theorem present_regs : (s.present w).regs = s.regs := rfl
@[simp] theorem present_reg (r : RegIdx) : (s.present w).reg r = s.reg r := rfl
@[simp] theorem present_pc : (s.present w).pc = s.pc := rfl
@[simp] theorem present_cnt : (s.present w).cnt = s.cnt := rfl
@[simp] theorem present_mem : (s.present w).mem = s.mem := rfl
@[simp] theorem present_code : (s.present w).code = s.code := rfl
@[simp] theorem present_smc : (s.present w).smc = s.smc := rfl
@[simp] theorem present_memMap : (s.present w).memMap = s.memMap := rfl
@[simp] theorem present_word : (s.present w).word = w := rfl
@[simp] theorem present_fault : (s.present w).fault = s.fault := rfl

end Present

section LoadFetched
variable (s : State) (w : Word)

@[simp] theorem loadFetched_regs : (s.loadFetched w).regs = s.regs := by unfold State.loadFetched; split <;> rfl
@[simp] theorem loadFetched_pc : (s.loadFetched w).pc = s.pc := by unfold State.loadFetched; split <;> rfl
@[simp] theorem loadFetched_cnt : (s.loadFetched w).cnt = s.cnt := by unfold State.loadFetched; split <;> rfl
@[simp] theorem loadFetched_smc : (s.loadFetched w).smc = s.smc := by unfold State.loadFetched; split <;> rfl
@[simp] theorem loadFetched_memMap : (s.loadFetched w).memMap = s.memMap := by unfold State.loadFetched; split <;> rfl
@[simp] theorem loadFetched_word : (s.loadFetched w).word = s.word := by unfold State.loadFetched; split <;> rfl
@[simp] theorem loadFetched_fault : (s.loadFetched w).fault = s.fault := by unfold State.loadFetched; split <;> rfl

end LoadFetched

/-! The register port depends on the registers alone. -/

theorem reg_of_regs_eq {s t : State} (h : t.regs = s.regs) (r : RegIdx) : t.reg r = s.reg r := by
  simp [State.reg, h]

@[simp] theorem reg_with_pc (s : State) (p : Word) (r : RegIdx) : State.reg { s with pc := p } r = s.reg r := rfl
@[simp] theorem reg_with_cnt (s : State) (c : Word) (r : RegIdx) : State.reg { s with cnt := c } r = s.reg r := rfl
@[simp] theorem reg_with_mem (s : State) (m : Memory) (r : RegIdx) : State.reg { s with mem := m } r = s.reg r := rfl
@[simp] theorem reg_with_fault (s : State) (f : Option FaultRecord) (r : RegIdx) :
    State.reg { s with fault := f } r = s.reg r := rfl

end Sys2Proof.Machine
end

