-- ==== Sys2Proof/Laws/Memory.lean ====
section
/-! SUPPORT. Memory: read after write, every other byte kept, and the canonical form kept by every operation. -/

namespace Sys2Proof.Machine

/-- Reading a byte after writing one. -/
theorem readByte_writeByte (m : Memory) (lo a b : Nat) (v : Byte) (h : Memory.wfFrom lo m = true) :
    (m.writeByte a v).readByte b = if b = a then v else m.readByte b := by
  induction m generalizing lo with
  | nil =>
    by_cases hv : v = unlistedByte <;> simp [Memory.writeByte, hv, Memory.readByte]
  | cons c rest ih =>
    obtain ⟨k, x⟩ := c
    simp only [Memory.wfFrom, Bool.and_eq_true, decide_eq_true_eq] at h
    obtain ⟨⟨⟨-, -⟩, -⟩, hr⟩ := h
    have below : ∀ (m : Memory) (lo b : Nat), Memory.wfFrom lo m = true → b < lo → m.readByte b = unlistedByte := by
      intro m lo b hm hb
      cases m with
      | nil => rfl
      | cons c rest =>
        simp only [Memory.wfFrom, Bool.and_eq_true, decide_eq_true_eq] at hm
        obtain ⟨⟨⟨hl, -⟩, -⟩, -⟩ := hm
        simp only [Memory.readByte]
        rw [if_neg (by omega), if_pos (by omega)]
    have hk := below rest (k + 1) k hr (by omega)
    simp only [Memory.writeByte]
    split
    · split
      · subst v
        by_cases hb : b = a
        · subst hb; simp only [Memory.readByte, if_true]; rw [if_neg (by omega), if_pos (by assumption)]
        · simp [hb]
      · simp only [Memory.readByte]
        by_cases hb : b = a
        · simp [hb]
        · simp only [hb, if_false]
          by_cases hlt : b < a
          · rw [if_pos hlt, if_neg (by omega), if_pos (by omega)]
          · rw [if_neg hlt]
    · split
      · subst a
        split
        · subst v
          by_cases hb : b = k
          · subst hb; simpa using hk
          · simp only [hb, if_false, Memory.readByte]
            by_cases hlt : b < k
            · rw [if_pos hlt, below rest (k + 1) b hr (by omega)]
            · rw [if_neg hlt]
        · simp only [Memory.readByte]
          by_cases hb : b = k <;> simp [hb]
      · simp only [Memory.readByte]
        by_cases hb : b = k
        · have : b ≠ a := by omega
          simp [hb, show k ≠ a by omega]
        · by_cases hlt : b < k
          · simp [hb, hlt, show b ≠ a by omega]
          · simp only [hb, hlt, if_false]; exact ih (k + 1) hr

theorem wfFrom_mono {m : Memory} {lo lo' : Nat} (h : Memory.wfFrom lo m = true) (hl : lo' ≤ lo) :
    Memory.wfFrom lo' m = true := by
  cases m with
  | nil => rfl
  | cons c rest =>
    simp only [Memory.wfFrom, Bool.and_eq_true, decide_eq_true_eq] at h ⊢
    exact ⟨⟨⟨by omega, h.1.1.2⟩, h.1.2⟩, h.2⟩

/-- Writing a byte keeps the canonical form. -/
theorem writeByte_wfFrom (m : Memory) (lo a : Nat) (v : Byte) (h : Memory.wfFrom lo m = true) (hlo : lo ≤ a)
    (ha : a < 2 ^ 32) : Memory.wfFrom lo (m.writeByte a v) = true := by
  induction m generalizing lo with
  | nil =>
    by_cases hv : v = unlistedByte
    · simp [Memory.writeByte, hv, Memory.wfFrom]
    · simp [Memory.writeByte, hv, Memory.wfFrom, hlo]; omega
  | cons c rest ih =>
    obtain ⟨k, x⟩ := c
    have h' := h
    simp only [Memory.wfFrom, Bool.and_eq_true, decide_eq_true_eq] at h
    obtain ⟨⟨⟨hl, hk⟩, hx⟩, hr⟩ := h
    simp only [Memory.writeByte]
    split
    · split
      · exact h'
      · next hv =>
        simp only [Memory.wfFrom, Bool.and_eq_true, decide_eq_true_eq]
        exact ⟨⟨⟨hlo, ha⟩, by simpa using hv⟩, ⟨⟨by omega, hk⟩, hx⟩, hr⟩
    · split
      · split
        · exact wfFrom_mono hr (by omega)
        · next hv =>
          simp only [Memory.wfFrom, Bool.and_eq_true, decide_eq_true_eq]
          exact ⟨⟨⟨hlo, ha⟩, by simpa using hv⟩, by subst a; exact hr⟩
      · simp only [Memory.wfFrom, Bool.and_eq_true, decide_eq_true_eq]
        exact ⟨⟨⟨hl, hk⟩, hx⟩, ih (k + 1) hr (by omega)⟩

theorem byteAddr_lt (a : Word) (i : Nat) : byteAddr a i < 2 ^ 32 := (a + BitVec.ofNat 32 i).isLt

theorem writeByte_wf {m : Memory} (h : m.wf = true) (a : Word) (i : Nat) (v : Byte) :
    Memory.wf (m.writeByte (byteAddr a i) v) = true :=
  writeByte_wfFrom m 0 _ v h (Nat.zero_le _) (byteAddr_lt a i)

/-- Writing a word keeps the canonical form. -/
theorem writeWord_wf {m : Memory} (h : m.wf = true) (a v : Word) : (m.writeWord a v).wf = true :=
  writeByte_wf (writeByte_wf (writeByte_wf (writeByte_wf h a 0 _) a 1 _) a 2 _) a 3 _

/-- The memory at reset lists nothing and is canonical. -/
theorem reset_mem_wf : State.reset.mem.wf = true := rfl

/-- The four bytes of a word have four addresses. -/
theorem byteAddr_inj (a : Word) {i j : Nat} (hi : i < 4) (hj : j < 4) (h : byteAddr a i = byteAddr a j) : i = j := by
  unfold byteAddr at h
  have ha := a.isLt
  simp only [BitVec.toNat_add, BitVec.toNat_ofNat] at h
  omega

/-- Each byte after a word is written: the word's own byte inside it, and the old byte elsewhere. -/
theorem readByte_writeWord {m : Memory} (h : m.wf = true) (a v : Word) (b : Nat) :
    (m.writeWord a v).readByte b =
      if b = byteAddr a 3 then byteOfWord v 3 else if b = byteAddr a 2 then byteOfWord v 2
      else if b = byteAddr a 1 then byteOfWord v 1 else if b = byteAddr a 0 then byteOfWord v 0 else m.readByte b := by
  have h0 := writeByte_wf h a 0 (byteOfWord v 0)
  have h1 := writeByte_wf h0 a 1 (byteOfWord v 1)
  have h2 := writeByte_wf h1 a 2 (byteOfWord v 2)
  unfold Memory.writeWord
  rw [readByte_writeByte _ 0 _ _ _ h2, readByte_writeByte _ 0 _ _ _ h1, readByte_writeByte _ 0 _ _ _ h0,
    readByte_writeByte _ 0 _ _ _ h]

/-- The word's bytes put together are the word. -/
theorem wordOfBytes_byteOfWord (v : Word) :
    wordOfBytes (byteOfWord v 0) (byteOfWord v 1) (byteOfWord v 2) (byteOfWord v 3) = v := by
  apply BitVec.eq_of_getLsbD_eq
  intro i hi
  simp only [wordOfBytes, byteOfWord, BitVec.getLsbD_append, BitVec.getLsbD_extractLsb']
  interval_cases i <;> simp

/-- The word read back at the address it was written to is the word written (R34). -/
theorem readWord_writeWord {m : Memory} (h : m.wf = true) (a v : Word) : (m.writeWord a v).readWord a = v := by
  have ne : ∀ {i j : Nat}, i < 4 → j < 4 → i ≠ j → byteAddr a i ≠ byteAddr a j :=
    fun hi hj hij he => hij (byteAddr_inj a hi hj he)
  unfold Memory.readWord
  simp only [readByte_writeWord h, if_true, if_neg (ne (i := 0) (j := 3) (by omega) (by omega) (by omega)),
    if_neg (ne (i := 0) (j := 2) (by omega) (by omega) (by omega)), if_neg (ne (i := 0) (j := 1) (by omega) (by omega) (by omega)),
    if_neg (ne (i := 1) (j := 3) (by omega) (by omega) (by omega)), if_neg (ne (i := 1) (j := 2) (by omega) (by omega) (by omega)),
    if_neg (ne (i := 2) (j := 3) (by omega) (by omega) (by omega))]
  exact wordOfBytes_byteOfWord v

/-- A byte outside the word written is kept. -/
theorem readByte_writeWord_outside {m : Memory} (h : m.wf = true) (a v : Word) {b : Nat} (hb : ¬ inWord a b) :
    (m.writeWord a v).readByte b = m.readByte b := by
  simp only [inWord, not_or] at hb
  rw [readByte_writeWord h, if_neg hb.2.2.2, if_neg hb.2.2.1, if_neg hb.2.1, if_neg hb.1]

end Sys2Proof.Machine
end

