-- ==== Sys2Proof/Laws/Ops.lean ====
section
/-! SUPPORT. For each shared operation, once, everything it can do. -/

namespace Sys2Proof.Machine

variable {s t : State} {k : FaultKind} {a v : Word}

/-- Done advances the PC and changes nothing else. -/
theorem finish_next : finish s = .next t ↔ t = { s with pc := s.pc + instrBytes } := by
  constructor
  · intro h; cases h; rfl
  · rintro rfl; rfl

/-- Done after `set_target` sets the PC and changes nothing else. -/
theorem finishAt_next : finishAt a s = .next t ↔ t = { s with pc := a } := by
  constructor
  · intro h; cases h; rfl
  · rintro rfl; rfl

/-- Taking a fault records it and changes nothing else. -/
theorem raise_next : raise k s = .next t ↔ t = { s with fault := some (faultRecord k s) } := by
  constructor
  · intro h; cases h; rfl
  · rintro rfl; rfl

/-- A read succeeds exactly at an aligned, readable address, and gives the word there (R29). -/
theorem memRead_ok : memRead s a = .ok v ↔ aligned a = true ∧ s.validR a = true ∧ v = s.mem.readWord a := by
  unfold memRead
  cases aligned a <;> cases s.validR a <;> simp [eq_comm]

/-- A read fails as misaligned, or, at an aligned address, as out of range (R28, R29, R90). -/
theorem memRead_error : memRead s a = .error k ↔
    (aligned a = false ∧ k = .address .load a .misaligned) ∨
      (aligned a = true ∧ s.validR a = false ∧ k = .address .load a .outOfRange) := by
  unfold memRead
  cases aligned a <;> cases s.validR a <;> simp [eq_comm]

/-- A write succeeds exactly at an aligned, writable address, and changes that word only (R30). -/
theorem memWrite_ok : memWrite s a v = .ok t ↔
    aligned a = true ∧ s.validW a = true ∧ t = { s with mem := s.mem.writeWord a v } := by
  unfold memWrite
  cases aligned a <;> cases s.validW a <;> simp [eq_comm]

/-- A write fails as misaligned, or, at an aligned address, as out of range (R28, R30, R90). -/
theorem memWrite_error : memWrite s a v = .error k ↔
    (aligned a = false ∧ k = .address .store a .misaligned) ∨
      (aligned a = true ∧ s.validW a = false ∧ k = .address .store a .outOfRange) := by
  unfold memWrite
  cases aligned a <;> cases s.validW a <;> simp [eq_comm]

/-- Writing a result register and ending. -/
theorem writeAndFinish_next {rd : RegIdx} :
    writeAndFinish rd v s = .next t ↔ t = { s.setReg rd v with pc := s.pc + instrBytes } := finish_next

/-- A checked result: the fault on overflow, else the write. -/
theorem checkedWrite_next {ovf : Bool} {rd : RegIdx} : checkedWrite ovf rd v s = .next t ↔
    (ovf = true ∧ t = { s with fault := some (faultRecord .arithmeticOverflow s) }) ∨
      (ovf = false ∧ t = { s.setReg rd v with pc := s.pc + instrBytes }) := by
  unfold checkedWrite
  cases ovf
  · simp [writeAndFinish_next]
  · simp [raise_next]

/-- Store-word: the write and the advance, or the store fault with nothing changed. -/
theorem storeWord_next {rt rs : RegIdx} {imm : Imm16} : storeWord rt rs imm s = .next t ↔
    (∃ k, memWrite s (s.ea rs imm) (s.reg rt) = .error k ∧ t = { s with fault := some (faultRecord k s) }) ∨
      (aligned (s.ea rs imm) = true ∧ s.validW (s.ea rs imm) = true ∧
        t = { s with mem := s.mem.writeWord (s.ea rs imm) (s.reg rt), pc := s.pc + instrBytes }) := by
  unfold storeWord
  cases h : memWrite s (s.ea rs imm) (s.reg rt) with
  | error k =>
    have hno : ¬ (aligned (s.ea rs imm) = true ∧ s.validW (s.ea rs imm) = true) := by
      rintro ⟨h1, h2⟩
      rcases memWrite_error.mp h with ⟨h3, -⟩ | ⟨-, h3, -⟩ <;> simp_all
    simp only [raise_next, Except.error.injEq, exists_eq_left']
    constructor
    · exact .inl
    · rintro (h1 | ⟨h1, h2, -⟩)
      · exact h1
      · exact absurd ⟨h1, h2⟩ hno
  | ok s' =>
    obtain ⟨h1, h2, rfl⟩ := memWrite_ok.mp h
    simp [finish_next, h1, h2]

/-- A memory with a run of `n` words zeroed from `a` on. -/
def zeroed : Nat → Word → Memory → Memory
  | 0, _, m => m
  | n + 1, a, m => zeroed n (a + 4) (m.writeWord a 0)

theorem zeroWords_error {n : Nat} (h : memWrite s a 0 = .error k) : zeroWords (n + 1) a s = (s, some k) := by
  unfold zeroWords; rw [h]

theorem zeroWords_ok {n : Nat} (h : memWrite s a 0 = .ok t) : zeroWords (n + 1) a s = zeroWords n (a + 4) t := by
  rw [zeroWords, h]

theorem zeroed_wf (n : Nat) (a : Word) {m : Memory} (h : m.wf = true) : (zeroed n a m).wf = true := by
  induction n generalizing a m with
  | zero => exact h
  | succ n ih => exact ih _ (writeWord_wf h a 0)

/-- The address of a later word of a run, seen from the second word. -/
theorem run_shift (a : Word) (i : Nat) : a + 4 * BitVec.ofNat 32 (i + 1) = a + 4 + 4 * BitVec.ofNat 32 i := by
  rw [show BitVec.ofNat 32 (i + 1) = BitVec.ofNat 32 i + 1 from by simp [BitVec.ofNat_add]]
  ring

/-- A zeroed word reads 0 in each of its bytes. -/
theorem readByte_writeWord_zero {m : Memory} (h : m.wf = true) (a : Word) (b : Nat) :
    (m.writeWord a 0).readByte b = 0 ∨ (m.writeWord a 0).readByte b = m.readByte b := by
  have z : ∀ i : Nat, byteOfWord 0 i = 0 := fun i => by simp [byteOfWord]
  rw [readByte_writeWord h]
  simp only [z]
  split_ifs <;> simp

/-- A byte outside every word of the run is kept. -/
theorem readByte_zeroed_outside (n : Nat) (a : Word) {m : Memory} (h : m.wf = true) {b : Nat}
    (hb : ∀ i < n, ¬ inWord (a + 4 * BitVec.ofNat 32 i) b) : (zeroed n a m).readByte b = m.readByte b := by
  induction n generalizing a m with
  | zero => rfl
  | succ n ih =>
    have h0 : ¬ inWord a b := by simpa using hb 0 (by omega)
    rw [zeroed, ih _ (writeWord_wf h a 0) (fun i hi => run_shift a i ▸ hb (i + 1) (by omega)),
      readByte_writeWord_outside h a 0 h0]

/-- A byte that reads 0 still reads 0 after the run. -/
theorem readByte_zeroed_of_zero (n : Nat) (a : Word) {m : Memory} (h : m.wf = true) {b : Nat} (hb : m.readByte b = 0) :
    (zeroed n a m).readByte b = 0 := by
  induction n generalizing a m with
  | zero => exact hb
  | succ n ih =>
    refine ih _ (writeWord_wf h a 0) ?_
    exact (readByte_writeWord_zero h a b).elim id (fun h1 => h1.trans hb)

/-- A byte inside a word of the run reads 0. -/
theorem readByte_zeroed_inside (n : Nat) (a : Word) {m : Memory} (h : m.wf = true) {b i : Nat} (hi : i < n)
    (hb : inWord (a + 4 * BitVec.ofNat 32 i) b) : (zeroed n a m).readByte b = 0 := by
  induction n generalizing a m i with
  | zero => omega
  | succ n ih =>
    cases i with
    | succ i => exact ih _ (writeWord_wf h a 0) (i := i) (by omega) (run_shift a i ▸ hb)
    | zero =>
      have h0 : inWord a b := by simpa using hb
      refine readByte_zeroed_of_zero n _ (writeWord_wf h a 0) ?_
      have z : ∀ i : Nat, byteOfWord 0 i = 0 := fun i => by simp [byteOfWord]
      rw [readByte_writeWord h]
      simp only [z]
      rcases h0 with h1 | h1 | h1 | h1 <;> split_ifs <;> rfl

/-- Each word of the run reads 0. -/
theorem readWord_zeroed (n : Nat) (a : Word) {m : Memory} (h : m.wf = true) {i : Nat} (hi : i < n) :
    (zeroed n a m).readWord (a + 4 * BitVec.ofNat 32 i) = 0 := by
  unfold Memory.readWord
  rw [readByte_zeroed_inside n a h hi (.inl rfl), readByte_zeroed_inside n a h hi (.inr (.inl rfl)),
    readByte_zeroed_inside n a h hi (.inr (.inr (.inl rfl))), readByte_zeroed_inside n a h hi (.inr (.inr (.inr rfl)))]
  rfl

/-- A run of zeroing writes: `j` words were zeroed, and either that is all of them, or word `j` is the first whose write
fails, and its fault is reported (R78). -/
theorem zeroWords_cases (n : Nat) (a : Word) (s : State) : ∃ j,
    (∀ i < j, aligned (a + 4 * BitVec.ofNat 32 i) = true ∧ s.validW (a + 4 * BitVec.ofNat 32 i) = true) ∧
      ((j = n ∧ zeroWords n a s = ({ s with mem := zeroed j a s.mem }, none)) ∨
        (j < n ∧ ∃ k, memWrite s (a + 4 * BitVec.ofNat 32 j) 0 = .error k ∧
          zeroWords n a s = ({ s with mem := zeroed j a s.mem }, some k))) := by
  induction n generalizing a s with
  | zero => exact ⟨0, by simp, .inl ⟨rfl, rfl⟩⟩
  | succ n ih =>
    cases h : memWrite s a 0 with
    | error k => exact ⟨0, by simp, .inr ⟨by omega, k, by simpa using h, zeroWords_error h⟩⟩
    | ok s' =>
      obtain ⟨h1, h2, rfl⟩ := memWrite_ok.mp h
      obtain ⟨j, hall, hj⟩ := ih (a + 4) { s with mem := s.mem.writeWord a 0 }
      refine ⟨j + 1, ?_, ?_⟩
      · intro i hi
        cases i with
        | zero => simpa using ⟨h1, h2⟩
        | succ i => rw [run_shift]; exact hall i (by omega)
      · rcases hj with ⟨rfl, hz⟩ | ⟨hlt, k, hk, hz⟩
        · exact .inl ⟨rfl, (zeroWords_ok h).trans hz⟩
        · refine .inr ⟨by omega, k, ?_, (zeroWords_ok h).trans hz⟩
          rw [run_shift]
          rw [memWrite_error] at hk ⊢
          exact hk

end Sys2Proof.Machine
end

