-- ==== Sys2Proof/Laws/PerInstr.lean ====
section
/-! SUPPORT. Per-instruction lemmas. Family `Encodes`: an instruction's word fits its own catalog row (R49, R53). -/

namespace Sys2Proof.Laws

/-- The operand bits leave an entry's match alone: the mask and the operand fields share no bit. -/
theorem fits_of_disjoint (sp : InstructionSpec) (x : Word) (hm : sp.matchBits &&& sp.mask = sp.matchBits)
    (hx : x &&& sp.mask = 0) : sp.fits (sp.matchBits ||| x) = true := by
  have : (sp.matchBits ||| x) &&& sp.mask = (sp.matchBits &&& sp.mask) ||| (x &&& sp.mask) := by
    ext i hi
    simp only [BitVec.getElem_and, BitVec.getElem_or]
    cases sp.matchBits[i] <;> cases x[i] <;> cases sp.mask[i] <;> rfl
  unfold InstructionSpec.fits
  rw [this, hm, hx]
  simp

/-- Fields that share no bit with the mask, put together, share none with it. -/
theorem or_and_zero {x y m : Word} (hx : x &&& m = 0) (hy : y &&& m = 0) : (x ||| y) &&& m = 0 := by
  have : (x ||| y) &&& m = (x &&& m) ||| (y &&& m) := by
    ext i hi
    simp only [BitVec.getElem_and, BitVec.getElem_or]
    cases x[i] <;> cases y[i] <;> cases m[i] <;> rfl
  rw [this, hx, hy]
  rfl

theorem rsBits_R (r : RegIdx) : rsBits r &&& 0xFC0007FF = 0 := by revert r; decide
theorem rtBits_R (r : RegIdx) : rtBits r &&& 0xFC0007FF = 0 := by revert r; decide
theorem rdBits_R (r : RegIdx) : rdBits r &&& 0xFC0007FF = 0 := by revert r; decide
theorem rsBits_r (r : RegIdx) : rsBits r &&& 0xFC00003F = 0 := by revert r; decide
theorem rtBits_r (r : RegIdx) : rtBits r &&& 0xFC00003F = 0 := by revert r; decide
theorem rdBits_r (r : RegIdx) : rdBits r &&& 0xFC00003F = 0 := by revert r; decide
theorem rsBits_I (r : RegIdx) : rsBits r &&& 0xFC000000 = 0 := by revert r; decide
theorem rtBits_I (r : RegIdx) : rtBits r &&& 0xFC000000 = 0 := by revert r; decide

theorem low_and_opcode {n : Nat} (h : n ≤ 26) (x : BitVec n) : x.setWidth 32 &&& (0xFC000000 : Word) = 0 := by
  apply BitVec.eq_of_getLsbD_eq
  intro i hi
  by_cases hn : i < n
  · have hc : ∀ j < 26, (0xFC000000 : Word).getLsbD j = false := by decide
    rw [BitVec.getLsbD_and, hc i (by omega)]
    simp
  · rw [BitVec.getLsbD_and, BitVec.getLsbD_setWidth, BitVec.getLsbD_of_ge x i (by omega)]
    simp

theorem imm_I (x : Imm16) : x.setWidth 32 &&& (0xFC000000 : Word) = 0 := low_and_opcode (by omega) x
theorem target_J (x : Target26) : x.setWidth 32 &&& (0xFC000000 : Word) = 0 := low_and_opcode (by omega) x

/-- The word of `i` fits the catalog row of its routine. -/
def Encodes.Statement (i : Instr) : Prop := (catalogRow i.routine).fits (encode i) = true

theorem Encodes.craft (rd rs rt : RegIdx) : Encodes.Statement (.craft rd rs rt) :=
  fits_of_disjoint (catalogRow .craft) _ (by decide) (or_and_zero (or_and_zero (rsBits_r rs) (rtBits_r rt)) (rdBits_r rd))
theorem Encodes.punch (rd rs rt : RegIdx) : Encodes.Statement (.punch rd rs rt) :=
  fits_of_disjoint (catalogRow .punch) _ (by decide) (or_and_zero (or_and_zero (rsBits_r rs) (rtBits_r rt)) (rdBits_r rd))
theorem Encodes.stack (rd rs rt : RegIdx) : Encodes.Statement (.stack rd rs rt) :=
  fits_of_disjoint (catalogRow .stack) _ (by decide) (or_and_zero (or_and_zero (rsBits_r rs) (rtBits_r rt)) (rdBits_r rd))
theorem Encodes.fletch (rd rs rt : RegIdx) : Encodes.Statement (.fletch rd rs rt) :=
  fits_of_disjoint (catalogRow .fletch) _ (by decide) (or_and_zero (or_and_zero (rsBits_r rs) (rtBits_r rt)) (rdBits_r rd))
theorem Encodes.split (rd rs rt : RegIdx) : Encodes.Statement (.split rd rs rt) :=
  fits_of_disjoint (catalogRow .split) _ (by decide) (or_and_zero (or_and_zero (rsBits_r rs) (rtBits_r rt)) (rdBits_r rd))
theorem Encodes.move (rt rs : RegIdx) (imm : Imm16) : Encodes.Statement (.move rt rs imm) :=
  fits_of_disjoint (catalogRow .move) _ (by decide) (or_and_zero (or_and_zero (rsBits_I rs) (rtBits_I rt)) (imm_I imm))
theorem Encodes.chest (rt rs : RegIdx) (imm : Imm16) : Encodes.Statement (.chest rt rs imm) :=
  fits_of_disjoint (catalogRow .chest) _ (by decide) (or_and_zero (or_and_zero (rsBits_I rs) (rtBits_I rt)) (imm_I imm))
theorem Encodes.enchant (rt rs : RegIdx) (imm : Imm16) : Encodes.Statement (.enchant rt rs imm) :=
  fits_of_disjoint (catalogRow .enchant) _ (by decide) (or_and_zero (or_and_zero (rsBits_I rs) (rtBits_I rt)) (imm_I imm))
theorem Encodes.build (rt rs : RegIdx) (imm : Imm16) : Encodes.Statement (.build rt rs imm) :=
  fits_of_disjoint (catalogRow .build) _ (by decide) (or_and_zero (or_and_zero (rsBits_I rs) (rtBits_I rt)) (imm_I imm))
theorem Encodes.breakBlock (rt rs : RegIdx) (imm : Imm16) : Encodes.Statement (.breakBlock rt rs imm) :=
  fits_of_disjoint (catalogRow .breakBlock) _ (by decide) (or_and_zero (or_and_zero (rsBits_I rs) (rtBits_I rt)) (imm_I imm))
theorem Encodes.creeper (rs : RegIdx) (imm : Imm16) : Encodes.Statement (.creeper rs imm) :=
  fits_of_disjoint (catalogRow .creeper) _ (by decide) (or_and_zero (rsBits_I rs) (imm_I imm))
theorem Encodes.hop (target : Target26) : Encodes.Statement (.hop target) :=
  fits_of_disjoint (catalogRow .hop) _ (by decide) (target_J target)
theorem Encodes.torch (rd rs : RegIdx) : Encodes.Statement (.torch rd rs) :=
  fits_of_disjoint (catalogRow .torch) _ (by decide) (or_and_zero (rsBits_r rs) (rdBits_r rd))
theorem Encodes.redstone (rd rs : RegIdx) : Encodes.Statement (.redstone rd rs) :=
  fits_of_disjoint (catalogRow .redstone) _ (by decide) (or_and_zero (rsBits_r rs) (rdBits_r rd))
theorem Encodes.farm (rd rs : RegIdx) : Encodes.Statement (.farm rd rs) :=
  fits_of_disjoint (catalogRow .farm) _ (by decide) (or_and_zero (rsBits_r rs) (rdBits_r rd))
theorem Encodes.strength (rd rs : RegIdx) : Encodes.Statement (.strength rd rs) :=
  fits_of_disjoint (catalogRow .strength) _ (by decide) (or_and_zero (rsBits_R rs) (rdBits_R rd))
theorem Encodes.weakness (rd rs : RegIdx) : Encodes.Statement (.weakness rd rs) :=
  fits_of_disjoint (catalogRow .weakness) _ (by decide) (or_and_zero (rsBits_R rs) (rdBits_R rd))
theorem Encodes.speed (rd rs : RegIdx) : Encodes.Statement (.speed rd rs) :=
  fits_of_disjoint (catalogRow .speed) _ (by decide) (or_and_zero (rsBits_R rs) (rdBits_R rd))
theorem Encodes.slowness (rd rs : RegIdx) : Encodes.Statement (.slowness rd rs) :=
  fits_of_disjoint (catalogRow .slowness) _ (by decide) (or_and_zero (rsBits_R rs) (rdBits_R rd))
theorem Encodes.summon (rd : RegIdx) : Encodes.Statement (.summon rd) :=
  fits_of_disjoint (catalogRow .summon) _ (by decide) (rdBits_R rd)
theorem Encodes.reset : Encodes.Statement .reset := by
  unfold Encodes.Statement; decide

end Sys2Proof.Laws
end

