-- ==== Sys2Proof/Tests/Slice0.lean ====
section
/-! SUPPORT. Tests. Expected values come from spec/95_test_vectors.md or are written out from spec/30_encoding.md; the map
is the MAP_EX of 95 section 0. -/

namespace Sys2Proof.Tests

open Sys2Proof Sys2Proof.Machine

/-! ## Helpers -/

/-- MAP_EX of spec/95_test_vectors.md section 0. -/
def mapEx : List Region := [⟨0x00400000, 0x10000, true, false⟩, ⟨0x10010000, 0x10000, true, true⟩]

/-- A state under MAP_EX with some registers and some words set. -/
def st (regs : List (RegIdx × Word)) (words : List (Word × Word)) : State :=
  let s0 : State := { State.reset with memMap := mapEx, mem := words.foldl (fun m w => m.writeWord w.1 w.2) [] }
  regs.foldl (fun s r => s.setReg r.1 r.2) s0

/-- A check of the next state. -/
def next? (o : Host.Outcome State Fault Refusal) (f : State → Bool) : Bool :=
  match o with
  | .next s => f s
  | _ => false

/-- The dispatch of one word. -/
def run (w : Word) (s : State) (f : State → Bool) : Bool := next? (dispatch w s) f

/-- The recorded fault's kind and code. -/
def kindOf (s : State) : Option (FaultKind × Nat) := s.fault.map fun r => (r.kind, r.code)

/-! ## WellFormed: each check refuses an ill-formed term -/

theorem test_wellFormed_matchInMask : (rEntry "x" "" "" 0x00000820 .craft).wellFormed = false := by decide
theorem test_wellFormed_maskOfFormat :
    InstructionSpec.wellFormed ⟨"x", "", "", .rType, 0x20, 0xFC000000, .craft⟩ = false := by decide
theorem test_wellFormed_opcodeOfFormat_r : (rEntry "x" "" "" 0x04000020 .craft).wellFormed = false := by decide
theorem test_wellFormed_opcodeOfFormat_i : (iEntry "x" "" "" 0x00000000 .move).wellFormed = false := by decide
theorem test_wellFormed_formatOfRoutine : (iEntry "x" "" "" 0x20000000 .craft).wellFormed = false := by decide
theorem test_wellFormed_partition :
    catalogWellFormed [rEntry "x" "" "" 0x30 .craft, rSubEntry "y" "" "" 0x70 .punch] = false := by decide
theorem test_wellFormed_instr : Instr.wellFormedIn [catalogRow .punch] (.craft 1 2 3) = false := by decide
theorem test_wellFormed_register :
    registerAll [] [rEntry "x" "" "" 0x30 .craft, rSubEntry "y" "" "" 0x70 .punch] = .error (.collision "y" "x") := by
  decide
theorem test_catalog_wellFormed : catalogWellFormed catalog = true := by decide
theorem test_catalog_instr : Instr.wellFormedIn catalog (.craft 1 2 3) = true := by decide

/-! ## Decode: every constructor, from its encoding written out field by field (opcode rs rt rd shamt funct, or opcode rs rt
imm), unused fields set to other values where R48 lets them be ignored -/

theorem test_decode_craft : decode 0b000000_00001_00010_00011_00001_100000 = .ok (.craft 3 1 2) := by decide
theorem test_decode_punch : decode 0b000000_00001_00010_00011_00000_100010 = .ok (.punch 3 1 2) := by decide
theorem test_decode_stack : decode 0b000000_11111_00010_10000_00000_100100 = .ok (.stack 16 31 2) := by decide
theorem test_decode_fletch : decode 0b000000_00001_11110_00011_00000_100101 = .ok (.fletch 3 1 30) := by decide
theorem test_decode_move : decode 0b001000_00001_00010_1111111111111110 = .ok (.move 2 1 0xFFFE) := by decide
theorem test_decode_chest : decode 0b101011_00001_00010_0000000000000100 = .ok (.chest 2 1 4) := by decide
theorem test_decode_enchant : decode 0b100011_00001_00011_1000000000000001 = .ok (.enchant 3 1 0x8001) := by decide
theorem test_decode_split : decode 0b000000_00001_00010_00011_11111_011010 = .ok (.split 3 1 2) := by decide
theorem test_decode_hop : decode 0b000010_10000000000000000000000001 = .ok (.hop 0x2000001) := by decide
theorem test_decode_torch : decode 0b000000_00001_00111_00011_00000_100111 = .ok (.torch 3 1) := by decide
theorem test_decode_strength : decode 0b000000_11111_00000_11111_00000_110000 = .ok (.strength 31 31) := by decide
theorem test_decode_weakness : decode 0b000000_00001_00000_00011_00001_110000 = .ok (.weakness 3 1) := by decide
theorem test_decode_speed : decode 0b000000_00001_10101_00011_00010_110000 = .ok (.speed 3 1) := by decide
theorem test_decode_slowness : decode 0b000000_00001_00000_00011_00011_110000 = .ok (.slowness 3 1) := by decide
theorem test_decode_summon : decode 0b000000_10101_01010_00011_00000_110001 = .ok (.summon 3) := by decide
theorem test_decode_build : decode 0b101111_00001_00010_1111111111111100 = .ok (.build 2 1 0xFFFC) := by decide
theorem test_decode_break : decode 0b100111_00001_00011_1111111111111000 = .ok (.breakBlock 3 1 0xFFF8) := by decide
theorem test_decode_redstone : decode 0b000000_00001_00000_00011_00000_100110 = .ok (.redstone 3 1) := by decide
theorem test_decode_creeper : decode 0b111111_00001_11111_0000000000001000 = .ok (.creeper 1 8) := by decide
theorem test_decode_farm : decode 0b000000_00001_00000_00011_00000_101000 = .ok (.farm 3 1) := by decide
theorem test_decode_reset : decode 0b000000_00000_00000_11111_00001_110001 = .ok .reset := by decide

/-- The illegal words of 95 section 8. -/
theorem test_decode_notFound :
    [0x00000000, 0x00000130, 0x000000B1, 0x000007F1, 0x0022183A, 0x04000000, 0x0C000000].all
      (fun w => decode w == .error (.notFound w)) = true := by decide

theorem test_decode_allOnes : decode 0xFFFFFFFF = .ok (.creeper 31 0xFFFF) := by decide
theorem test_decodeTableWord : decodeTableWord 32 0x8C230004 = some (.enchant 3 1 4) := by decide
theorem test_decodeBytes : decodeBytes [0x04, 0x00, 0x23, 0x8C, 0x55] = .ok (.enchant 3 1 4, [0x55]) := by decide
theorem test_decodeBytes_short : decodeBytes [0x04, 0x00, 0x23] = .error (.shortInput 3) := by decide
theorem test_encode_build : encode (.build 2 1 0xFFFC) = 0xBC22FFFC := by decide
theorem test_encode_hop : encode (.hop 0x0100004) = 0x08100004 := by decide

/-! ## Meanings: the vectors of spec/95_test_vectors.md sections 2 to 9 -/

theorem test_craft_overflow : run 0x00221820 (st [(1, 0x7FFFFFFF), (2, 1), (3, 0xCAFE)] [])
    (fun s => s.reg 3 == 0xCAFE && kindOf s == some (.arithmeticOverflow, 12) && s.pc == 0x00400000) = true := by decide
theorem test_craft_mixed : run 0x00221820 (st [(1, 5), (2, 0xFFFFFFFD)] [])
    (fun s => s.reg 3 == 2 && s.pc == 0x00400004 && s.fault == none) = true := by decide
theorem test_punch_edge : run 0x00221822 (st [(1, 0xFFFFFFFF), (2, 0x7FFFFFFF)] [])
    (fun s => s.reg 3 == 0x80000000 && s.fault == none) = true := by decide
theorem test_punch_overflow : run 0x00221822 (st [(2, 0x80000000), (3, 0xCAFE)] [])
    (fun s => s.reg 3 == 0xCAFE && kindOf s == some (.arithmeticOverflow, 12)) = true := by decide
theorem test_move_negative : run 0x20028000 (st [(2, 0xCAFE)] [])
    (fun s => s.reg 2 == 0xFFFF8000 && s.fault == none) = true := by decide
theorem test_move_overflow : run 0x20228000 (st [(1, 0x80000000), (2, 0xCAFE)] [])
    (fun s => s.reg 2 == 0xCAFE && kindOf s == some (.arithmeticOverflow, 12)) = true := by decide
theorem test_split_negative : run 0x0022181A (st [(1, 0xFFFFFFF9), (2, 2)] [])
    (fun s => s.reg 3 == 0xFFFFFFFD) = true := by decide
theorem test_split_corner : run 0x0022181A (st [(1, 0x80000000), (2, 0xFFFFFFFF)] [])
    (fun s => s.reg 3 == 0x80000000 && s.fault == none) = true := by decide
theorem test_split_zero : run 0x0022181A (st [(1, 5), (3, 0xCAFE)] [])
    (fun s => s.reg 3 == 0xCAFE && kindOf s == some (.divideByZero, 15)) = true := by decide
theorem test_stack : run 0x00221824 (st [(1, 0xF0F0FFFF), (2, 0x0FF0F00F)] [])
    (fun s => s.reg 3 == 0x00F0F00F) = true := by decide
theorem test_fletch : run 0x00221825 (st [(1, 0xF0F0FFFF), (2, 0x0FF0F00F)] [])
    (fun s => s.reg 3 == 0xFFF0FFFF) = true := by decide
theorem test_torch : run 0x00271827 (st [(1, 0x12345678)] []) (fun s => s.reg 3 == 0xEDCBA987) = true := by decide
theorem test_strength : run 0x00201830 (st [(1, 0x40000000)] [])
    (fun s => s.reg 3 == 0x80000000 && s.fault == none) = true := by decide
theorem test_weakness : run 0x00201870 (st [(1, 0xFFFFFFF9)] []) (fun s => s.reg 3 == 0xFFFFFFFC) = true := by decide
theorem test_speed : run 0x002018B0 (st [(1, 0x7FFFFFFF)] [])
    (fun s => s.reg 3 == 0x80000004 && s.fault == none) = true := by decide
theorem test_slowness : run 0x002018F0 (st [(1, 3)] []) (fun s => s.reg 3 == 0xFFFFFFFE) = true := by decide
theorem test_redstone : run 0x00201826 (st [(1, 6)] []) (fun s => s.reg 3 == 7) = true := by decide
theorem test_farm : run 0x00201828 (st [(1, 0x7FFFFFFF)] [])
    (fun s => s.reg 3 == 0x80000000 && s.fault == none) = true := by decide
theorem test_chest : run 0xAC220004 (st [(1, 0x10010000), (2, 0xDEADBEEF)] [])
    (fun s => s.mem == [(0x10010004, 0xEF), (0x10010005, 0xBE), (0x10010006, 0xAD), (0x10010007, 0xDE)]) = true := by decide
theorem test_chest_wraps : run 0xAC22FFFC (st [(2, 1)] [])
    (fun s => kindOf s == some (.address .store 0xFFFFFFFC .outOfRange, 5) && s.mem == []) = true := by decide
theorem test_enchant : run 0x8C210000 (st [(1, 0x10010000)] [(0x10010000, 0x1234)])
    (fun s => s.reg 1 == 0x1234) = true := by decide
theorem test_enchant_misaligned_first : run 0x8C230001 (st [(1, 0x20000000)] [])
    (fun s => kindOf s == some (.address .load 0x20000001 .misaligned, 4)) = true := by decide
theorem test_build : run 0xBC22FFFC (st [(1, 0x10010008), (2, 7)] [])
    (fun s => s.mem.readWord 0x10010004 == 7) = true := by decide
theorem test_build_misaligned : run 0xBC220000 (st [(1, 0x10010003), (2, 7)] [])
    (fun s => kindOf s == some (.address .store 0x10010003 .misaligned, 5) && s.mem == []) = true := by decide
theorem test_break_base : run 0x9C210000 (st [(1, 0x10010000)] [(0x10010000, 0x55)])
    (fun s => s.reg 1 == 0x55 && s.mem == []) = true := by decide
theorem test_break_writeFault : run 0x9C230000 (st [(1, 0x00400000), (3, 0xCAFE)] [(0x00400000, 0x11111111)])
    (fun s => s.reg 3 == 0x11111111 && s.mem.readWord 0x00400000 == 0x11111111 &&
      kindOf s == some (.address .store 0x00400000 .outOfRange, 5) && s.pc == 0x00400000) = true := by decide
theorem test_creeper_range : run 0xFC200003 (st [(1, 0x10010000)] [(0x10010000, 1), (0x10010004, 2)])
    (fun s => s.mem == [(0x10010004, 2)] && s.pc == 0x00400004) = true := by decide
theorem test_creeper_partWay : run 0xFC20000C (st [(1, 0x1001FFF8)] [(0x1001FFF4, 3), (0x1001FFF8, 0xC), (0x1001FFFC, 0xD)])
    (fun s => s.mem == [(0x1001FFF4, 3)] && kindOf s == some (.address .store 0x10020000 .outOfRange, 5)) = true := by decide
theorem test_hop_region : next? (exec (.hop 0x0100004) { State.reset with pc := 0x9FFFFFFC })
    (fun s => s.pc == 0xA0400010) = true := by decide
theorem test_hop_backward : next? (exec (.hop 0x0100000) { State.reset with pc := 0x00400008 })
    (fun s => s.pc == 0x00400000) = true := by decide
theorem test_summon_wraps : run 0x00001831 { st [(3, 9)] [] with cnt := 0xFFFFFFFF }
    (fun s => s.reg 3 == 0 && s.cnt == 0 && s.fault == none) = true := by decide
theorem test_summon_zero : run 0x00000031 { st [] [] with cnt := 7 } (fun s => s.cnt == 8 && s.reg 0 == 0) = true := by decide
theorem test_reset : run 0x0000F871 { st [(31, 4)] [] with cnt := 7 } (fun s => s.cnt == 0 && s.reg 31 == 4) = true := by
  decide

/-- A fault record holds the fetched word, unused bits too, and `pc_in`. -/
theorem test_record : next? (step (State.withFetchWord { st [(1, 0x7FFFFFFF)] [] with smc := false } 32 0x00211860))
    (fun s => s.fault == some ⟨.arithmeticOverflow, 12, 0x00211860, 0x00400004⟩) = true := by decide

theorem test_step_encodingFault : next? (step State.reset)
    (fun s => s.fault == some ⟨.encoding, 10, 0, 0x00400004⟩ && s.pc == 0x00400000) = true := by decide

theorem test_step_summon : next? (step (State.reset.withFetchWord 32 0x00001831))
    (fun s => s.reg 3 == 1 && s.pc == 0x00400004) = true := by decide

/-! ## Witnesses: for each statement with hypotheses, operands that meet them all -/

theorem test_witness_Fitting : (catalogRow .craft).matchInMask = true ∧ (catalogRow .craft).fits 0x00221860 = true := by
  decide

theorem test_witness_LookupAnswersTheOnlyHit : partitioned catalog = true := by decide

theorem test_witness_DecodeOfEncode : catalogWellFormed catalog = true ∧ encodeIn catalog .reset = some 0x71 := by decide

theorem test_witness_UnusedBitsAreIgnored : decode 0x00221860 = .ok (.craft 3 1 2) ∧
    (0x00221FE0 : Word) &&& usedBits .craft = 0x00221860 &&& usedBits .craft := by decide

theorem test_witness_BytesDecodeAsTheirWord : ([1, 2, 3] : List Byte).length < 4 := by decide

theorem test_witness_MemoryIsPlainStorage : (st [] []).mem.wf = true ∧ aligned 0x1001FFFC = true ∧
    (st [] []).validW 0x1001FFFC = true ∧ (st [] []).validR 0x1001FFFC = true := by decide

theorem test_witness_MemoryIsPlainStorage_load :
    ∃ t, exec (.enchant 3 1 0) (st [(1, 0x10010000)] []) = .next t := ⟨_, rfl⟩

theorem test_witness_EqualBytes : Memory.wf [(5, 1)] = true ∧ ∀ a, Memory.readByte [(5, 1)] a = Memory.readByte [(5, 1)] a :=
  ⟨by decide, fun _ => rfl⟩

/-- The greatest sums and differences in range, and the least. -/
theorem test_witness_CheckedInRange :
    let s := st [(1, 0x7FFFFFFE), (2, 1), (4, 0x80000000), (5, 0x7FFFFFFF)] []
    ((s.reg 1).toInt + (s.reg 2).toInt = 2 ^ 31 - 1) ∧ ((s.reg 4).toInt - (s.reg 0).toInt = -2 ^ 31) ∧
      ((s.reg 5).toInt + (0x8000 : Imm16).toInt < 2 ^ 31) ∧ (-2 ^ 31 ≤ (s.reg 5).toInt + (0x8000 : Imm16).toInt) := by decide

/-- Just out of range, above and below. -/
theorem test_witness_CheckedOutOfRange :
    let s := st [(1, 0x7FFFFFFF), (2, 1), (4, 0x80000000)] []
    ((s.reg 1).toInt + (s.reg 2).toInt = 2 ^ 31) ∧ ((s.reg 4).toInt - (s.reg 2).toInt = -2 ^ 31 - 1) ∧
      ((s.reg 4).toInt + (0xFFFF : Imm16).toInt = -2 ^ 31 - 1) := by decide

theorem test_witness_SplitTruncates : (st [(1, 0x80000000), (2, 0xFFFFFFFF)] []).reg 2 ≠ 0 := by decide
theorem test_witness_SplitByZero : (st [(1, 5)] []).reg 2 = 0 := by decide

theorem test_witness_PunchUndoesCraft : (3 : RegIdx) ≠ 0 ∧ (3 : RegIdx) ≠ 2 ∧ (st [(1, 5), (2, 6)] []).fault = none ∧
    next? (exec (.craft 3 1 2) (st [(1, 5), (2, 6)] [])) (fun t => t.fault == none) = true := by decide

theorem test_witness_LogicalResults : opcodeOf 0x00221824 = 0 ∧ functOf 0x00221824 = 0x24 ∧ opcodeOf 0x00221825 = 0 ∧
    functOf 0x00221825 = 0x25 := by decide

theorem test_witness_ThematicResults : functOf 0x00201827 = 0x27 ∧ functOf 0x00201830 = 0x30 ∧ shamtOf 0x00201830 = 0 ∧
    shamtOf 0x00201870 = 1 ∧ shamtOf 0x002018B0 = 2 ∧ shamtOf 0x002018F0 = 3 ∧ functOf 0x00201826 = 0x26 ∧
    functOf 0x00201828 = 0x28 ∧ opcodeOf 0x002018F0 = 0 ∧ (3 : RegIdx) ≠ 0 := by decide

theorem test_witness_IllegalWords : decode 0x000007F1 = .error (.notFound 0x000007F1) := by decide

theorem test_witness_TorchAndRedstone : (31 : RegIdx) ≠ 0 ∧ ∃ t u, exec (.torch 31 1) State.reset = .next t ∧
    exec (.torch 2 31) t = .next u := ⟨by decide, _, _, rfl, rfl⟩

theorem test_witness_SummonsAfterReset : (3 : RegIdx) ≠ 0 ∧
    next? (execAll [.summon 1, .summon 1, .reset, .summon 2, .summon 3] State.reset) (fun t => t.reg 3 == 2) = true := by
  decide

theorem test_witness_Stores : let s := st [(1, 0x10020000)] []
    s.mem.wf = true ∧ aligned (s.ea 1 0xFFFC) = true ∧ s.validW (s.ea 1 0xFFFC) = true := by decide

theorem test_witness_Enchant : let s := st [(1, 0x00400000)] []
    aligned (s.ea 1 0) = true ∧ s.validR (s.ea 1 0) = true := by decide

theorem test_witness_StoreAndLoadFaults_misaligned : aligned ((st [(1, 0x10010001)] []).ea 1 0) = false := by decide
theorem test_witness_StoreAndLoadFaults_store : let s := st [(1, 0x00400000)] []
    aligned (s.ea 1 0) = true ∧ s.validW (s.ea 1 0) = false := by decide
theorem test_witness_StoreAndLoadFaults_load : let s := st [(1, 0x10020000)] []
    aligned (s.ea 1 0) = true ∧ s.validR (s.ea 1 0) = false := by decide

theorem test_witness_StoreThenLoad : let s := st [(1, 0x10010000), (2, 7)] []
    s.mem.wf = true ∧ s.fault = none ∧ s.validR (s.ea 1 4) = true ∧
      next? (exec (.chest 2 1 4) s) (fun t => t.fault == none) = true ∧
      next? (exec (.build 2 1 4) s) (fun t => t.fault == none) = true := by decide

theorem test_witness_BreakTakes : let s := st [(1, 0x10010000)] [(0x10010000, 9)]
    s.mem.wf = true ∧ aligned (s.ea 1 0) = true ∧ s.validR (s.ea 1 0) = true ∧ s.validW (s.ea 1 0) = true := by decide
theorem test_witness_BreakFaults_misaligned : aligned ((st [(1, 0x10010003)] []).ea 1 0) = false := by decide
theorem test_witness_BreakFaults_read : let s := st [(1, 0x1000FFFC)] []
    aligned (s.ea 1 0) = true ∧ s.validR (s.ea 1 0) = false := by decide
theorem test_witness_BreakFaults_write : let s := st [(1, 0x0040FFFC)] []
    aligned (s.ea 1 0) = true ∧ s.validR (s.ea 1 0) = true ∧ s.validW (s.ea 1 0) = false := by decide
theorem test_witness_SecondBreak : let s := st [(1, 0x10010000)] [(0x10010000, 9)]
    s.mem.wf = true ∧ ((3 : RegIdx) ≠ 1 ∨ (3 : RegIdx) = 0) ∧ s.fault = none ∧
      next? (exec (.breakBlock 3 1 0) s) (fun t => t.fault == none) = true := by decide

/-- The run of the last two words of the data region. -/
theorem test_witness_CreeperZeroes : let s := st [(1, 0x1001FFF8)] []
    s.mem.wf = true ∧ 0 ≤ (7 : Imm16).toInt ∧ ∀ k : Nat, 4 * (k : Int) ≤ (7 : Imm16).toInt →
      aligned (s.reg 1 + BitVec.ofNat 32 (4 * k)) = true ∧ s.validW (s.reg 1 + BitVec.ofNat 32 (4 * k)) = true := by
  refine ⟨by decide, by decide, fun k hk => ?_⟩
  have h7 : (7 : Imm16).toInt = 7 := by decide
  have hk' : k < 2 := by omega
  interval_cases k <;> decide

theorem test_witness_CreeperBackwards : (0x8000 : Imm16).toInt < 0 ∧ (0xFFFF : Imm16).toInt < 0 := by decide
theorem test_witness_CreeperFault_misaligned :
    0 ≤ (0 : Imm16).toInt ∧ aligned ((st [(1, 0x10010002)] []).reg 1) = false := by decide
theorem test_witness_CreeperFault_partWay : let s := st [(1, 0x1001FFF8)] []
    s.mem.wf = true ∧ aligned (s.reg 1) = true ∧ 4 * ((2 : Nat) : Int) ≤ (12 : Imm16).toInt ∧
      (∀ k < 2, s.validW (s.reg 1 + BitVec.ofNat 32 (4 * k)) = true) ∧
      s.validW (s.reg 1 + BitVec.ofNat 32 (4 * 2)) = false := by decide

theorem test_witness_Hop : ∃ t, exec (.hop 5) State.reset = .next t := ⟨_, rfl⟩

theorem test_witness_Counter : (∀ rd, Instr.farm 1 1 ≠ .summon rd) ∧ Instr.farm 1 1 ≠ .reset ∧
    ∃ t, exec (.farm 1 1) State.reset = .next t :=
  ⟨nofun, nofun, _, rfl⟩

theorem test_witness_Sequence_done : State.reset.fault = none ∧ (∀ x, Instr.farm 1 1 ≠ .hop x) ∧
    ∃ t, exec (.farm 1 1) State.reset = .next t ∧ t.fault = none :=
  ⟨rfl, nofun, _, rfl, rfl⟩
theorem test_witness_Sequence_fault : State.reset.fault = none ∧ (∀ x, Instr.split 1 1 0 ≠ .hop x) ∧
    ∃ t, exec (.split 1 1 0) State.reset = .next t ∧ t.fault ≠ none :=
  ⟨rfl, nofun, _, rfl, nofun⟩

/-- FaultsArePrecise's arms that leave something changed: break's read fault and write fault, and creeper's fault at word 2,
each from a state with canonical memory and no fault recorded. -/
theorem test_witness_FaultsArePrecise :
    (st [(1, 0x1001FFF8)] [(0x1001FFF8, 0xC)]).mem.wf = true ∧ (st [(1, 0x1001FFF8)] [(0x1001FFF8, 0xC)]).fault = none ∧
      next? (exec (.creeper 1 12) (st [(1, 0x1001FFF8)] [(0x1001FFF8, 0xC)])) (fun t => t.fault != none) = true ∧
      next? (exec (.breakBlock 3 1 0) (st [(1, 0x00400000)] [])) (fun t => t.fault != none) = true ∧
      next? (exec (.breakBlock 3 1 0) (st [(1, 0x10020000)] [])) (fun t => t.fault != none) = true := by decide

/-- A fault of each kind that an instruction raises: what EachFaultHasItsRaisers and FaultsArePrecise speak of. -/
theorem test_witness_Faults : [
      exec (.craft 3 1 1) (st [(1, 0x40000000)] []), exec (.split 3 1 0) (st [] []), exec (.enchant 3 0 0) (st [] []),
      exec (.chest 3 0 0) (st [] []), exec (.breakBlock 3 0 0) (st [] []), exec (.creeper 0 0) (st [] [])].all
    (fun o => next? o (fun t => t.fault != none)) = true := by decide

theorem test_witness_Dispatch : lookup 0 = none ∧ lookup 0x71 = some (catalogRow .reset) := by decide

theorem test_witness_StepRuns : let s := State.reset.withFetchWord 32 0x00001831
    s.fault = none ∧ aligned s.pc = true ∧ decode (fetchWord s) = .ok (.summon 3) := by decide

theorem test_witness_Unmatched : State.reset.fault = none ∧ aligned State.reset.pc = true ∧
    decode (fetchWord State.reset) = .error (.notFound (fetchWord State.reset)) := by decide

theorem test_witness_RecordedFault :
    ({ State.reset with fault := some ⟨.encoding, 10, 0, 4⟩ } : State).fault = some ⟨.encoding, 10, 0, 4⟩ := rfl

/-- A run that ends well and a run that ends faulted. -/
theorem test_witness_Runs_ended : runUntil 0x00400004 3 (State.reset.withFetchWord 32 0x00000071) =
    .ended { State.reset.withFetchWord 32 0x00000071 with pc := 0x00400004, word := 0x00000071 } := by rfl
theorem test_witness_Runs_faulted : runUntil 0x00400004 3 State.reset =
    .faulted ⟨.encoding, 10, 0, 0x00400004⟩ { State.reset with fault := some ⟨.encoding, 10, 0, 0x00400004⟩ } := by rfl

theorem test_witness_Fetch_false : ({ State.reset with smc := false } : State).smc = false ∧
    ∃ t, exec (.chest 1 1 0) { State.reset with smc := false } = .next t := ⟨rfl, _, rfl⟩
theorem test_witness_Fetch_true : State.reset.mem.wf = true ∧ State.reset.smc = true ∧
    aligned (State.reset.ea 1 4) = true ∧ State.reset.validW (State.reset.ea 1 4) = true := by decide

theorem test_witness_Fetch_break : State.reset.validR (State.reset.ea 1 4) = true := by decide
theorem test_witness_Fetch_creeper : State.reset.mem.wf = true ∧ State.reset.smc = true ∧ 0 ≤ (7 : Imm16).toInt ∧
    ∀ k : Nat, 4 * (k : Int) ≤ (7 : Imm16).toInt → aligned (State.reset.reg 1 + BitVec.ofNat 32 (4 * k)) = true ∧
      State.reset.validW (State.reset.reg 1 + BitVec.ofNat 32 (4 * k)) = true := by
  refine ⟨by decide, by decide, by decide, fun k hk => ?_⟩
  have h7 : (7 : Imm16).toInt = 7 := by decide
  have hk' : k < 2 := by omega
  interval_cases k <;> decide

theorem test_witness_Placed : State.reset.mem.wf = true ∧ State.reset.code.wf = true ∧ State.reset.fault = none ∧
    aligned State.reset.pc = true := by decide

/-- A step from a state that meets the invariant, with a program in it. -/
theorem test_witness_StepKeeps : (State.reset.withFetchWord 32 0x00001831).Inv ∧
    ∃ t, step (State.reset.withFetchWord 32 0x00001831) = .next t :=
  ⟨⟨by decide, by decide, by decide, nofun⟩, _, rfl⟩

theorem test_witness_HostParameters :
    ∃ t, step (State.reset.withFetchWord 32 0xAC000000) = .next t ∧ t.memMap = State.reset.memMap := ⟨_, rfl, rfl⟩

end Sys2Proof.Tests
end

section
/-! PROOFS. The memory rules of spec/20_memory.md: memory is plain storage (R34). -/

namespace Sys2Proof.Machine

variable {s t : State} {a v : Word}

/-- A read depends on the memory and the memory map alone (R29, R31). -/
theorem memRead_congr (hmem : t.mem = s.mem) (hmap : t.memMap = s.memMap) (a : Word) : memRead t a = memRead s a := by
  have hvalid : t.validR a = s.validR a := by rw [State.validR, hmap, State.validR]
  rw [memRead, memRead, hvalid, hmem]

/-- A word read right after a successful write at its address is the word written, where the address is readable too
(R34). -/
theorem memRead_of_memWrite (hwf : s.mem.wf = true) (hr : s.validR a = true) (h : memWrite s a v = .ok t) :
    memRead t a = .ok v := by
  obtain ⟨ha, -, rfl⟩ := memWrite_ok.mp h
  exact memRead_ok.mpr ⟨ha, hr, (readWord_writeWord hwf a v).symm⟩

/-- A successful write keeps every byte outside the word addressed (R34). -/
theorem readByte_of_memWrite_outside (hwf : s.mem.wf = true) (h : memWrite s a v = .ok t) {b : Nat}
    (hb : ¬ inWord a b) : t.mem.readByte b = s.mem.readByte b := by
  obtain ⟨-, -, rfl⟩ := memWrite_ok.mp h
  exact readByte_writeWord_outside hwf a v hb

/-- enchant: the load fault with nothing else changed, or the word read written to x[rt] and the advance (R66). -/
theorem exec_enchant_next {rt rs : RegIdx} {imm : Imm16} : exec (.enchant rt rs imm) s = .next t ↔
    (∃ k, memRead s (s.ea rs imm) = .error k ∧ t = { s with fault := some (faultRecord k s) }) ∨
      (∃ v, memRead s (s.ea rs imm) = .ok v ∧ t = { s.setReg rt v with pc := s.pc + instrBytes }) := by
  change execEnchant rt rs imm s = .next t ↔ _
  unfold execEnchant
  cases memRead s (s.ea rs imm) with
  | error k => simp [raise_next]
  | ok v => simp [writeAndFinish_next]

/-- enchant leaves the memory and the memory map as they are, whether it loads or faults (R34, R66). -/
theorem exec_enchant_keeps_mem {rt rs : RegIdx} {imm : Imm16} (h : exec (.enchant rt rs imm) s = .next t) :
    t.mem = s.mem ∧ t.memMap = s.memMap := by
  obtain ⟨k, -, rfl⟩ | ⟨v, -, rfl⟩ := exec_enchant_next.mp h
  · exact ⟨rfl, rfl⟩
  · exact ⟨setReg_mem s rt v, setReg_memMap s rt v⟩

/-- Settles O12: the write-then-read law of the access engine, and the frame of enchant. -/
theorem memoryIsPlainStorage : Obligations.MemoryIsPlainStorage := by
  constructor
  · intro s a v hwf ha hw hr
    have hstore : memWrite s a v = .ok { s with mem := s.mem.writeWord a v } := memWrite_ok.mpr ⟨ha, hw, rfl⟩
    exact ⟨_, hstore, memRead_of_memWrite hwf hr hstore, fun _ hb => readByte_of_memWrite_outside hwf hstore hb⟩
  · intro s t rt rs imm h
    obtain ⟨hmem, hmap⟩ := exec_enchant_keeps_mem h
    exact ⟨fun b => congrArg (·.readByte b) hmem, memRead_congr hmem hmap⟩

end Sys2Proof.Machine
end

section
/-! PROOFS. The encoding rules of spec/30_encoding.md: what it is for a word to fit an entry (R49), and lookup over a
partition (R51, R52). -/

namespace Sys2Proof

variable {sp a b : InstructionSpec} {c : List InstructionSpec} {w : Word}

/-! ## Fitting, bit by bit (R49) -/

/-- R49's `(w & mask) = match`. -/
theorem fits_iff : sp.fits w = true ↔ w &&& sp.mask = sp.matchBits := by
  rw [InstructionSpec.fits, beq_iff_eq]

/-- `match & ~mask = 0`, bit by bit: a match sets no bit that is not fixed. -/
theorem matchInMask_iff_getLsbD : sp.matchInMask = true ↔
    ∀ k < 32, sp.mask.getLsbD k = false → sp.matchBits.getLsbD k = false := by
  rw [InstructionSpec.matchInMask, beq_iff_eq, BitVec.eq_of_getLsbD_eq_iff]
  refine forall₂_congr fun k hk => ?_
  rw [BitVec.getLsbD_and, BitVec.getLsbD_not, decide_eq_true hk]
  cases sp.mask.getLsbD k <;> simp

/-- A fixed bit of the word must be the match's, and at any other bit the match must be 0. -/
theorem fits_iff_getLsbD : sp.fits w = true ↔
    ∀ k < 32, (w.getLsbD k && sp.mask.getLsbD k) = sp.matchBits.getLsbD k := by
  simp only [fits_iff, BitVec.eq_of_getLsbD_eq_iff, BitVec.getLsbD_and]

/-- Where the match lies in the mask, only the fixed bits count. -/
theorem fits_iff_fixed_bits (hm : sp.matchInMask = true) : sp.fits w = true ↔
    ∀ k < 32, sp.mask.getLsbD k = true → w.getLsbD k = sp.matchBits.getLsbD k := by
  rw [fits_iff_getLsbD]
  refine forall₂_congr fun k hk => ?_
  cases hmask : sp.mask.getLsbD k with
  | true => simp
  | false => simp [matchInMask_iff_getLsbD.mp hm k hk hmask]

/-- Settles O1: both sides are equalities of words, read bit by bit. -/
theorem fittingIsAgreementOnFixedBits : Obligations.FittingIsAgreementOnFixedBits :=
  fun _ => ⟨matchInMask_iff_getLsbD, fun hm _ => fits_iff_fixed_bits hm⟩

/-! ## Lookup (R51) -/

/-- Two entries that share a word have no fixed bit that tells them apart, so R52's formula gives 0. -/
theorem not_disjoint_of_fits (ha : a.fits w = true) (hb : b.fits w = true) : a.disjoint b = false := by
  have hbits : (a.matchBits ^^^ b.matchBits) &&& a.mask &&& b.mask = 0 := by
    rw [← fits_iff.mp ha, ← fits_iff.mp hb]
    ext k
    simp only [BitVec.getElem_and, BitVec.getElem_xor]
    -- a bit that both masks fix is the word's own bit in both matches
    cases a.mask[k] <;> cases b.mask[k] <;> simp
  simp [InstructionSpec.disjoint, hbits]

/-- The hits of a word in a partition: once an entry fits, each later one is disjoint from it and does not (R52). -/
theorem length_hits_le_one (hc : partitioned c = true) (w : Word) : (c.filter (·.fits w)).length ≤ 1 := by
  induction c with
  | nil => simp
  | cons sp rest ih =>
    obtain ⟨hdisj, hrest⟩ : (∀ x ∈ rest, sp.disjoint x = true) ∧ partitioned rest = true := by
      simpa [partitioned] using hc
    by_cases hfit : sp.fits w = true
    · have hnone : rest.filter (·.fits w) = [] := List.filter_eq_nil_iff.mpr fun x hx hxfit => by
        simpa [hdisj x hx] using not_disjoint_of_fits hfit hxfit
      simp [hfit, hnone]
    · simpa [hfit] using ih hrest

/-- With at most one hit the parallel compare answers the first hit. -/
theorem lookupIn_eq_head? (hc : partitioned c = true) (w : Word) : lookupIn c w = (c.filter (·.fits w)).head? := by
  obtain hno | hone := Nat.le_one_iff_eq_zero_or_eq_one.mp (length_hits_le_one hc w)
  · simp [lookupIn, List.length_eq_zero_iff.mp hno]
  · obtain ⟨hit, hhits⟩ := List.length_eq_one_iff.mp hone
    simp [lookupIn, hhits]

/-- NotFound exactly where no entry fits. -/
theorem lookupIn_eq_none_iff (hc : partitioned c = true) : lookupIn c w = none ↔ ∀ sp ∈ c, sp.fits w = false := by
  rw [lookupIn_eq_head? hc, List.head?_eq_none_iff, List.filter_eq_nil_iff]
  simp only [Bool.not_eq_true]

/-- In a partition every entry that fits is the one lookup answers. -/
theorem lookupIn_eq_some_iff (hc : partitioned c = true) :
    lookupIn c w = some sp ↔ sp ∈ c ∧ sp.fits w = true := by
  rw [lookupIn_eq_head? hc]
  refine ⟨fun hhead => List.mem_filter.mp (List.mem_of_mem_head? hhead), fun hhit => ?_⟩
  have hmem : sp ∈ c.filter (·.fits w) := List.mem_filter.mpr hhit
  obtain ⟨hit, hhits⟩ := List.length_eq_one_iff.mp
    (Nat.le_antisymm (length_hits_le_one hc w) (List.length_pos_of_mem hmem))
  rw [hhits] at hmem ⊢
  rw [List.mem_singleton.mp hmem, List.head?_cons]

/-- Settles O2: a partition has at most one hit, and lookup answers it. -/
theorem lookupAnswersTheOnlyHit : Obligations.LookupAnswersTheOnlyHit :=
  fun _ hc w => ⟨length_hits_le_one hc w, (lookupIn_eq_none_iff hc).symm, fun _ => lookupIn_eq_some_iff hc⟩

end Sys2Proof
end

section
/-! PROOFS. Decode and encode (spec/30_encoding.md sections 2 to 4): the operand fields of a word, what the default catalog
matches, and that decoding takes back what encoding wrote. -/

namespace Sys2Proof

variable {sp : InstructionSpec} {c : List InstructionSpec} {r : Routine} {i : Instr} {w : Word}

/-! ## Fields of a word, and words of a field (R42 to R46) -/

section Fields
variable (x y : Word)

theorem rsOf_or : rsOf (x ||| y) = rsOf x ||| rsOf y := BitVec.extractLsb'_or
theorem rtOf_or : rtOf (x ||| y) = rtOf x ||| rtOf y := BitVec.extractLsb'_or
theorem rdOf_or : rdOf (x ||| y) = rdOf x ||| rdOf y := BitVec.extractLsb'_or
theorem immOf_or : immOf (x ||| y) = immOf x ||| immOf y := BitVec.extractLsb'_or

/-- A register field is cut out of the word by its mask. -/
theorem rsBits_rsOf : rsBits (rsOf x) = x &&& 0x03E00000 := by
  ext k hk; interval_cases k <;> simp [rsBits, rsOf]
theorem rtBits_rtOf : rtBits (rtOf x) = x &&& 0x001F0000 := by
  ext k hk; interval_cases k <;> simp [rtBits, rtOf]
theorem rdBits_rdOf : rdBits (rdOf x) = x &&& 0x0000F800 := by
  ext k hk; interval_cases k <;> simp [rdBits, rdOf]
theorem setWidth_immOf : (immOf x).setWidth 32 = x &&& 0x0000FFFF := by
  ext k hk; interval_cases k <;> simp [immOf]
theorem setWidth_targetOf : (targetOf x).setWidth 32 = x &&& 0x03FFFFFF := by
  ext k hk; interval_cases k <;> simp [targetOf]

end Fields

section FieldsOfBits
variable (g : RegIdx) (imm : Imm16) (target : Target26)

@[simp] theorem rsOf_rsBits : rsOf (rsBits g) = g := by revert g; decide
@[simp] theorem rsOf_rtBits : rsOf (rtBits g) = 0 := by revert g; decide
@[simp] theorem rsOf_rdBits : rsOf (rdBits g) = 0 := by revert g; decide
@[simp] theorem rtOf_rsBits : rtOf (rsBits g) = 0 := by revert g; decide
@[simp] theorem rtOf_rtBits : rtOf (rtBits g) = g := by revert g; decide
@[simp] theorem rtOf_rdBits : rtOf (rdBits g) = 0 := by revert g; decide
@[simp] theorem rdOf_rsBits : rdOf (rsBits g) = 0 := by revert g; decide
@[simp] theorem rdOf_rtBits : rdOf (rtBits g) = 0 := by revert g; decide
@[simp] theorem rdOf_rdBits : rdOf (rdBits g) = g := by revert g; decide
@[simp] theorem immOf_rsBits : immOf (rsBits g) = 0 := by revert g; decide
@[simp] theorem immOf_rtBits : immOf (rtBits g) = 0 := by revert g; decide

@[simp] theorem rsOf_setWidth : rsOf (imm.setWidth 32) = 0 := by
  ext k
  simpa [rsOf] using fun _ => BitVec.getLsbD_of_ge imm (21 + k) (by omega)
@[simp] theorem rtOf_setWidth : rtOf (imm.setWidth 32) = 0 := by ext k; simp [rtOf]
@[simp] theorem immOf_setWidth : immOf (imm.setWidth 32) = imm := by
  ext k hk
  simp [immOf, BitVec.getLsbD_eq_getElem hk, show k < 32 by omega]
@[simp] theorem targetOf_setWidth : targetOf (target.setWidth 32) = target := by
  ext k hk
  simp [targetOf, BitVec.getLsbD_eq_getElem hk, show k < 32 by omega]

end FieldsOfBits

/-! ## Operands of a routine -/

@[simp] theorem routine_extract (r : Routine) (w : Word) : (extract r w).routine = r := by cases r <;> rfl

/-- The operand fields of an instruction, read back from the word that holds them alone. -/
theorem extract_operandBits (i : Instr) : extract i.routine (operandBits i) = i := by
  cases i <;> simp [Instr.routine, extract, operandBits, rsOf_or, rtOf_or, rdOf_or, immOf_or]

/-- Placing the operands taken from a word gives the word's operand fields back, every other bit 0. -/
theorem operandBits_extract (r : Routine) (w : Word) : operandBits (extract r w) = w &&& operandMask r := by
  cases r <;>
    simp only [extract, operandBits, operandMask, rsBits_rsOf, rtBits_rtOf, rdBits_rdOf, setWidth_immOf,
      setWidth_targetOf, ← BitVec.and_or_distrib_left] <;> simp

/-- The operands are read from the operand fields alone. -/
theorem extract_congr {w' : Word} (h : w &&& operandMask r = w' &&& operandMask r) : extract r w = extract r w' := by
  have cut (v : Word) : extract r (v &&& operandMask r) = extract r v := by
    simpa [operandBits_extract] using extract_operandBits (extract r v)
  rw [← cut w, h, cut w']

/-- An instruction's operand bits lie in its routine's operand fields. -/
theorem operandBits_and_operandMask (i : Instr) : operandBits i &&& operandMask i.routine = operandBits i := by
  rw [← operandBits_extract, extract_operandBits]

/-- No mask of R50 for a routine's format fixes a bit of the routine's operands. -/
theorem operandMask_and_mask (r : Routine) : ∀ m ∈ r.format.masks, operandMask r &&& m = 0 := by
  cases r <;> simp [Routine.format, Format.masks, operandMask]

/-- The four checks of an entry (R42, R43, R45, R49, R50). -/
theorem wellFormed_iff : sp.wellFormed = true ↔ sp.matchInMask = true ∧ sp.mask ∈ sp.format.masks ∧
    sp.opcodeOfFormat = true ∧ sp.format = sp.routine.format := by
  simp only [InstructionSpec.wellFormed, InstructionSpec.maskOfFormat, InstructionSpec.formatOfRoutine,
    Bool.and_eq_true, List.contains_iff_mem, beq_iff_eq, and_assoc]

/-- The mask of a well-formed entry fixes no operand bit of its routine. -/
theorem operandMask_and_mask_of_wellFormed (h : sp.wellFormed = true) : operandMask sp.routine &&& sp.mask = 0 := by
  obtain ⟨-, hmask, -, hformat⟩ := wellFormed_iff.mp h
  exact operandMask_and_mask sp.routine sp.mask (hformat ▸ hmask)

/-- A match that lies in its mask is not changed by cutting it to the mask. -/
theorem matchBits_and_mask (h : sp.matchInMask = true) : sp.matchBits &&& sp.mask = sp.matchBits := by
  ext k hk
  have := matchInMask_iff_getLsbD.mp h k hk
  simp only [BitVec.getLsbD_eq_getElem hk] at this
  cases hm : sp.mask[k] <;> simp_all

/-! ## Decode takes back what encode wrote (R7, R45, R56) -/

/-- A word made of a well-formed entry's match and an instruction's operands fits the entry, and its operands are the
instruction's. -/
theorem fits_and_extract_of_wellFormed (h : sp.wellFormed = true) (hr : sp.routine = i.routine) :
    sp.fits (sp.matchBits ||| operandBits i) = true ∧ extract sp.routine (sp.matchBits ||| operandBits i) = i := by
  have hmatch := matchBits_and_mask (wellFormed_iff.mp h).1
  have hdisj := operandMask_and_mask_of_wellFormed h
  have hops : operandBits i &&& operandMask sp.routine = operandBits i := hr ▸ operandBits_and_operandMask i
  constructor
  · refine Laws.fits_of_disjoint sp _ hmatch ?_
    rw [← hops, BitVec.and_assoc, hdisj]
    exact BitVec.and_zero
  · have hnone : sp.matchBits &&& operandMask sp.routine = 0 := by
      rw [← hmatch, BitVec.and_assoc, BitVec.and_comm sp.mask, hdisj]
      exact BitVec.and_zero
    rw [extract_congr (w' := operandBits i), hr, extract_operandBits]
    simp [BitVec.and_or_distrib_right, hnone]

theorem decodeIn_of_encodeIn (hc : catalogWellFormed c = true) (h : encodeIn c i = some w) : decodeIn c w = .ok i := by
  obtain ⟨hall, hpart⟩ : (∀ sp ∈ c, sp.wellFormed = true) ∧ partitioned c = true := by
    simpa [catalogWellFormed] using hc
  obtain ⟨sp, hrow, rfl⟩ := Option.map_eq_some_iff.mp h
  have hmem : sp ∈ c := List.mem_of_find?_eq_some hrow
  have hr : sp.routine = i.routine := by simpa using List.find?_some hrow
  obtain ⟨hfits, hextract⟩ := fits_and_extract_of_wellFormed (hall sp hmem) hr
  simp [decodeIn, (lookupIn_eq_some_iff hpart).mpr ⟨hmem, hfits⟩, hextract]

/-! ## The default catalog (R53) -/

theorem catalog_wellFormed : catalogWellFormed catalog = true := by decide

theorem catalog_partitioned : partitioned catalog = true := by decide

@[simp] theorem catalogRow_routine (r : Routine) : (catalogRow r).routine = r := by cases r <;> rfl

theorem mem_catalog : sp ∈ catalog ↔ sp = catalogRow sp.routine := by
  have hall (r : Routine) : r ∈ Routine.all := by cases r <;> decide
  constructor
  · intro h
    obtain ⟨r, -, rfl⟩ := List.mem_map.mp h
    rw [catalogRow_routine]
  · intro h
    exact h ▸ List.mem_map_of_mem (hall sp.routine)

/-- The default catalog has an entry for every instruction. -/
theorem encodeIn_catalog (i : Instr) : encodeIn catalog i = some (encode i) := by
  have hrow (r : Routine) : rowIn catalog r = some (catalogRow r) := by cases r <;> rfl
  rw [encodeIn, hrow, Option.map_some, encode]

/-- Settles O4: a well-formed entry fixes no operand bit, so the encoded word fits its own entry, which the partition makes
the only one, and the operands are read back from their fields. -/
theorem decodeOfEncodeIsTheInstruction : Obligations.DecodeOfEncodeIsTheInstruction :=
  ⟨fun _ hc _ _ h => decodeIn_of_encodeIn hc h, fun i => decodeIn_of_encodeIn catalog_wellFormed (encodeIn_catalog i)⟩

/-- Lookup in the default catalog answers the row that the word fits. -/
theorem lookup_eq_some_iff : lookup w = some sp ↔ sp = catalogRow sp.routine ∧ sp.fits w = true := by
  rw [lookup, lookupIn_eq_some_iff catalog_partitioned, mem_catalog]

theorem decode_of_lookup_some (h : lookup w = some sp) : decode w = .ok (extract sp.routine w) := by
  rw [decode, decodeIn, show lookupIn catalog w = some sp from h]

theorem decode_of_lookup_none (h : lookup w = none) : decode w = .error (.notFound w) := by
  rw [decode, decodeIn, show lookupIn catalog w = none from h]

/-- A word decodes to an instruction exactly when it fits the row of its routine and holds its operands. -/
theorem decode_eq_ok_iff : decode w = .ok i ↔ (catalogRow i.routine).fits w = true ∧ extract i.routine w = i := by
  constructor
  · intro h
    cases hl : lookup w with
    | none =>
      rw [decode_of_lookup_none hl] at h
      cases h
    | some sp =>
      obtain ⟨hrow, hfits⟩ := lookup_eq_some_iff.mp hl
      obtain rfl : extract sp.routine w = i := Except.ok.inj ((decode_of_lookup_some hl).symm.trans h)
      rw [routine_extract, ← hrow]
      exact ⟨hfits, rfl⟩
  · rintro ⟨hfits, hextract⟩
    have hl : lookup w = some (catalogRow i.routine) := lookup_eq_some_iff.mpr ⟨by rw [catalogRow_routine], hfits⟩
    rw [decode_of_lookup_some hl, catalogRow_routine, hextract]

/-- A word that fits the row of a routine decodes to that routine on the word's operands. -/
theorem decode_of_fits (h : (catalogRow r).fits w = true) : decode w = .ok (extract r w) :=
  decode_eq_ok_iff.mpr (by simpa using h)

theorem or_and_self_left (x y : Word) : (x ||| y) &&& x = x := by
  ext k
  rw [BitVec.getElem_and, BitVec.getElem_or]
  cases x[k] <;> simp

/-- Settles O5: fitting reads the mask's bits, the operands are read from their fields, and both together are the used
bits. -/
theorem unusedBitsAreIgnored : Obligations.UnusedBitsAreIgnored := by
  intro w i h
  obtain ⟨hfits, hextract⟩ := decode_eq_ok_iff.mp h
  have hmatch := fits_iff.mp hfits
  constructor
  · rw [encode, usedBits, BitVec.and_or_distrib_left, hmatch, ← operandBits_extract, hextract]
  · intro w' hw'
    have cut {m : Word} (hm : usedBits i.routine &&& m = m) : w' &&& m = w &&& m := by
      rw [← hm, ← BitVec.and_assoc, hw', BitVec.and_assoc]
    have hmask : w' &&& (catalogRow i.routine).mask = w &&& (catalogRow i.routine).mask :=
      cut (or_and_self_left _ _)
    have hops : w' &&& operandMask i.routine = w &&& operandMask i.routine :=
      cut (by rw [usedBits, BitVec.or_comm, or_and_self_left])
    exact decode_eq_ok_iff.mpr ⟨fits_iff.mpr (hmask.trans hmatch), (extract_congr hops).trans hextract⟩

end Sys2Proof
end

section
/-! PROOFS. The opcode map (spec/30_encoding.md sections 1, 4 and 5): fitting by fields, the illegal words, the byte view of
a word, the construction of a catalog, and what describe lists. -/

namespace Sys2Proof

variable {sp : InstructionSpec} {c : List InstructionSpec} {r : Routine} {w : Word}

/-! ## Fitting by fields (R50) -/

/-- Two words hold the same field exactly when they agree at every bit of it. -/
theorem extractLsb'_eq_iff {x y : Word} {lo n : Nat} (h : lo + n ≤ 32) :
    x.extractLsb' lo n = y.extractLsb' lo n ↔ ∀ k < 32, lo ≤ k → k < lo + n → x.getLsbD k = y.getLsbD k := by
  simp only [BitVec.eq_of_getLsbD_eq_iff, BitVec.getLsbD_extractLsb']
  constructor
  · intro hfield k _ hlo hhi
    simpa [Nat.add_sub_cancel' hlo, show k - lo < n by omega] using hfield (k - lo) (by omega)
  · intro hbits k hk
    simpa [hk] using hbits (lo + k) (by omega) (by omega) (by omega)

/-- The bits that each mask of R50 fixes: the opcode's, with funct's, and with shamt's. -/
theorem getLsbD_opcodeMask : ∀ k < 32, (0xFC000000 : Word).getLsbD k = true ↔ 26 ≤ k := by decide
theorem getLsbD_functMask : ∀ k < 32, (0xFC00003F : Word).getLsbD k = true ↔ 26 ≤ k ∨ k < 6 := by decide
theorem getLsbD_shamtMask : ∀ k < 32, (0xFC0007FF : Word).getLsbD k = true ↔ 26 ≤ k ∨ k < 11 := by decide

/-- A word fits a well-formed entry exactly when it has its opcode, its funct where the entry is R-type, and its shamt where
the entry's mask holds shamt. -/
theorem fits_iff_fields (h : sp.wellFormed = true) : sp.fits w = true ↔
    opcodeOf w = opcodeOf sp.matchBits ∧ (sp.format = .rType → functOf w = functOf sp.matchBits) ∧
      (sp.mask = 0xFC0007FF → shamtOf w = shamtOf sp.matchBits) := by
  rw [fits_iff_fixed_bits (wellFormed_iff.mp h).1, opcodeOf, opcodeOf, functOf, functOf, shamtOf, shamtOf,
    extractLsb'_eq_iff (by omega), extractLsb'_eq_iff (by omega), extractLsb'_eq_iff (by omega)]
  obtain ⟨-, hmask, -, -⟩ := wellFormed_iff.mp h
  cases hf : sp.format with
  | rType =>
    obtain hm | hm : sp.mask = 0xFC00003F ∨ sp.mask = 0xFC0007FF := by simpa [hf, Format.masks] using hmask
    · have := getLsbD_functMask
      simp only [hm]
      grind
    · have := getLsbD_shamtMask
      simp only [hm]
      grind
  | iType | jType =>
    have hm : sp.mask = 0xFC000000 := by simpa [hf, Format.masks] using hmask
    have := getLsbD_opcodeMask
    simp only [hm]
    grind

theorem catalogRow_wellFormed (r : Routine) : (catalogRow r).wellFormed = true := by cases r <;> decide

/-- A word with the opcode, funct and (where the row's mask holds it) shamt of a routine's row decodes to that routine. -/
theorem decode_of_fields (hop : opcodeOf w = opcodeOf (catalogRow r).matchBits)
    (hfunct : functOf w = functOf (catalogRow r).matchBits)
    (hshamt : (catalogRow r).mask = 0xFC0007FF → shamtOf w = shamtOf (catalogRow r).matchBits) :
    decode w = .ok (extract r w) :=
  decode_of_fits ((fits_iff_fields (catalogRow_wellFormed r)).mpr ⟨hop, fun _ => hfunct, hshamt⟩)

/-! ## The illegal words (R54) -/

/-- Decode fails exactly where lookup does, and reports the word itself. -/
theorem decode_eq_error_iff {e : DecodeError} : decode w = .error e ↔ lookup w = none ∧ e = .notFound w := by
  cases h : lookup w with
  | some sp => simp [decode_of_lookup_some h]
  | none => simp [decode_of_lookup_none h, eq_comm]

theorem lookup_eq_none_iff : lookup w = none ↔ ∀ r ∈ Routine.all, (catalogRow r).fits w = false := by
  rw [lookup, lookupIn_eq_none_iff catalog_partitioned, catalog, List.forall_mem_map]

/-- R54's opcode map, from the fields of the 21 rows. -/
theorem lookup_eq_none_iff_fields : lookup w = none ↔
    (opcodeOf w = 0 ∧
      (functOf w ∉ ([0x1A, 0x20, 0x22, 0x24, 0x25, 0x26, 0x27, 0x28, 0x30, 0x31] : List (BitVec 6)) ∨
        (functOf w = 0x30 ∧ 4 ≤ (shamtOf w).toNat) ∨ (functOf w = 0x31 ∧ 2 ≤ (shamtOf w).toNat))) ∨
    opcodeOf w ∉ ([0x00, 0x02, 0x08, 0x23, 0x27, 0x2B, 0x2F, 0x3F] : List (BitVec 6)) := by
  have four_le : ∀ x : BitVec 5, 4 ≤ x.toNat ↔ x ≠ 0 ∧ x ≠ 1 ∧ x ≠ 2 ∧ x ≠ 3 := by decide
  have two_le : ∀ x : BitVec 5, 2 ≤ x.toNat ↔ x ≠ 0 ∧ x ≠ 1 := by decide
  have hrows : lookup w = none ↔ ∀ r ∈ Routine.all, ¬ (opcodeOf w = opcodeOf (catalogRow r).matchBits ∧
      ((catalogRow r).format = .rType → functOf w = functOf (catalogRow r).matchBits) ∧
      ((catalogRow r).mask = 0xFC0007FF → shamtOf w = shamtOf (catalogRow r).matchBits)) := by
    simp only [lookup_eq_none_iff, ← Bool.not_eq_true, fits_iff_fields (catalogRow_wellFormed _)]
  rw [hrows, four_le, two_le]
  generalize hop : opcodeOf w = op
  generalize hf : functOf w = f
  generalize hs : shamtOf w = sh
  simp only [Routine.all, catalogRow, rEntry, rSubEntry, iEntry, jEntry, opcodeOf, functOf, shamtOf]
  by_cases hR : op = 0#6
  · -- R-type: the two shared functs are told apart by shamt
    by_cases h30 : f = 48#6
    · simp [hR, h30]
    · by_cases h31 : f = 49#6
      · simp [hR, h31]
      · simp [hR, h30, h31]
        exact iff_of_eq (by ac_rfl)
  · simp [hR]
    exact iff_of_eq (by ac_rfl)

/-- Settles O6: the words no row fits, read field by field. -/
theorem illegalWordsAreThoseOfTheOpcodeMap : Obligations.IllegalWordsAreThoseOfTheOpcodeMap := by
  intro w
  rw [← lookup_eq_none_iff_fields]
  exact ⟨by simp [decode_eq_error_iff], fun e he => (decode_eq_error_iff.mp he).2⟩

/-! ## Bytes (R32, R41) -/

/-- Settles O7: the four bytes put together are the word, and no shorter list reaches the decoder. -/
theorem bytesDecodeAsTheirWord : Obligations.BytesDecodeAsTheirWord := by
  constructor
  · intro w rest
    simp only [List.cons_append, List.nil_append, decodeBytes, Machine.wordOfBytes_byteOfWord]
    cases decode w <;> rfl
  · intro bs hlen
    match bs, hlen with
    | [], _ | [_], _ | [_, _], _ | [_, _, _], _ => rfl
    | _ :: _ :: _ :: _ :: _, hlen => simp at hlen; omega

/-! ## Construction (R52, R105) -/

/-- Registering fails exactly where an entry already there collides. -/
theorem register_eq_error_iff : (∃ e, register c sp = .error e) ↔ ∃ old ∈ c, sp.disjoint old = false := by
  unfold register
  split
  · next old hold =>
    have := List.find?_some hold
    simp only [Except.error.injEq, exists_eq', true_iff]
    exact ⟨old, List.mem_of_find?_eq_some hold, by simpa using this⟩
  · next hnone => simpa using hnone

/-- Registering an entry that collides with none appends it. -/
theorem register_eq_ok_iff {c' : List InstructionSpec} :
    register c sp = .ok c' ↔ c' = c ++ [sp] ∧ ∀ old ∈ c, sp.disjoint old = true := by
  unfold register
  split
  · next old hold =>
    have hcollides : sp.disjoint old = false := by simpa using List.find?_some hold
    simp only [reduceCtorEq, false_iff, not_and, not_forall]
    exact fun _ => ⟨old, List.mem_of_find?_eq_some hold, by simp [hcollides]⟩
  · next hnone =>
    have hclear : ∀ old ∈ c, sp.disjoint old = true := by simpa using hnone
    simp only [Except.ok.injEq, eq_comm (a := c ++ [sp]), iff_self_and]
    exact fun _ => hclear

theorem InstructionSpec.disjoint_comm (a b : InstructionSpec) : a.disjoint b = b.disjoint a := by
  rw [InstructionSpec.disjoint, InstructionSpec.disjoint, BitVec.xor_comm, BitVec.and_assoc, BitVec.and_comm a.mask,
    ← BitVec.and_assoc]

/-- Construction onto a list of entries succeeds exactly when the new ones are a partition among themselves and collide with
none already there. -/
theorem registerAll_ok_iff (old new : List InstructionSpec) : registerAll old new = .ok (old ++ new) ↔
    partitioned new = true ∧ ∀ a ∈ new, ∀ b ∈ old, a.disjoint b = true := by
  induction new generalizing old with
  | nil => simp [registerAll, partitioned]
  | cons sp rest ih =>
    rw [registerAll]
    cases hreg : register old sp with
    | error e =>
      obtain ⟨b, hb, hcollides⟩ := register_eq_error_iff.mp ⟨e, hreg⟩
      simp only [reduceCtorEq, false_iff, not_and, not_forall]
      exact fun _ => ⟨sp, by simp, b, hb, by simp [hcollides]⟩
    | ok c' =>
      obtain ⟨rfl, hsp⟩ := register_eq_ok_iff.mp hreg
      have hassoc : old ++ sp :: rest = (old ++ [sp]) ++ rest := by simp
      simp only [hassoc, ih, partitioned, Bool.and_eq_true, List.all_eq_true, List.mem_append, List.mem_cons,
        InstructionSpec.disjoint_comm sp]
      grind

theorem registerAll_nil_iff : registerAll [] c = .ok c ↔ partitioned c = true := by
  simpa using registerAll_ok_iff [] c

/-- Settles O3: construction is the partition check, one entry after the other. -/
theorem constructionFailsExactlyOnCollision : Obligations.ConstructionFailsExactlyOnCollision := by
  refine ⟨fun c sp => ?_, fun c => registerAll_nil_iff, registerAll_nil_iff.mpr catalog_partitioned⟩
  rw [register_eq_error_iff]
  simp [InstructionSpec.disjoint]

/-! ## Examples and describe (R57) -/

/-- Settles O8: eight concrete words, decoded by evaluation. -/
theorem exampleWordsDecode : Obligations.ExampleWordsDecode := by
  unfold Obligations.ExampleWordsDecode
  decide

/-- Settles O9: the strings of the 21 rows, read off the catalog. -/
theorem describeListsTheCatalog : Obligations.DescribeListsTheCatalog := ⟨rfl, rfl, rfl⟩

end Sys2Proof
end

section
/-! PROOFS. The register port and arms of the dispatch (spec/10_state.md R15, R16; 20_memory.md R27, R28): what a register
write leaves, and the shared operation that an instruction is. -/

namespace Sys2Proof.Machine

variable {s t : State} {rd r : RegIdx} {v : Word}

/-! ## The register port (R15) -/

theorem reg_zero (s : State) : s.reg 0 = 0 := rfl

theorem reg_setReg (s : State) (r r' : RegIdx) (v : Word) :
    (s.setReg r v).reg r' = if r' = r ∧ r ≠ 0 then v else s.reg r' := by
  by_cases hr : r = 0
  · rw [hr, setReg_zero, if_neg (fun h => h.2 rfl)]
  · by_cases hr' : r' = 0
    · rw [hr', reg_zero, reg_zero, if_neg (fun h => hr h.1.symm)]
    · have hindex : r.toNat = r'.toNat ↔ r' = r := BitVec.toNat_inj.trans eq_comm
      have hr5 : ¬ r = 0#5 := hr
      have hr5' : ¬ r' = 0#5 := hr'
      simp [State.reg, State.setReg, hr5, hr5', Vector.getElem_set, hindex]

/-- Settles O10: the three laws of the port. -/
theorem registerPortHardwiresZero : Obligations.RegisterPortHardwiresZero :=
  fun s r r' v => ⟨reg_zero s, setReg_zero s v, reg_setReg s r r' v⟩

/-! ## The effective address (R27, R28) -/

theorem toInt_sext16 (imm : Imm16) : (sext16 imm).toInt = imm.toInt := BitVec.toInt_signExtend_of_le (by omega)

theorem ea_eq (s : State) (rs : RegIdx) (imm : Imm16) :
    s.ea rs imm = BitVec.ofInt 32 ((s.reg rs).toNat + imm.toInt) := by
  rw [State.ea, BitVec.ofInt_add, BitVec.ofInt_natCast, BitVec.ofNat_toNat, BitVec.setWidth_eq, ← toInt_sext16,
    BitVec.ofInt_toInt]

theorem aligned_iff (a : Word) : aligned a = true ↔ a.toNat % 4 = 0 := by
  simp [aligned, ← BitVec.toNat_inj, BitVec.extractLsb'_toNat]

/-- Settles O11: sign extension keeps the signed value, and the low two bits are the remainder by 4. -/
theorem effectiveAddressWraps : Obligations.EffectiveAddressWraps :=
  fun s rs imm a => ⟨ea_eq s rs imm, aligned_iff a⟩

/-! ## The frame of a register write (R16) -/

/-- A register write is seen through the registers alone, whatever else the state holds. -/
theorem registerWritten_of_regs_eq (h : t.regs = (s.setReg rd v).regs) : RegisterWritten rd v s t := by
  refine ⟨reg_zero t, fun r => ?_⟩
  rw [reg_of_regs_eq h, reg_setReg]
  by_cases hr : r = rd <;> simp [hr]

/-- A result written and the PC advanced, nothing else changed. -/
theorem onlyRegister_setReg (rd : RegIdx) (v : Word) (s : State) :
    OnlyRegister rd v s { s.setReg rd v with pc := s.pc + instrBytes } :=
  ⟨registerWritten_of_regs_eq rfl, rfl, rfl, fun _ => rfl, ⟨rfl, rfl, rfl, rfl⟩, rfl⟩

theorem writeAndFinish_onlyRegister (rd : RegIdx) (v : Word) (s : State) :
    ∃ t, writeAndFinish rd v s = .next t ∧ OnlyRegister rd v s t :=
  ⟨_, rfl, onlyRegister_setReg rd v s⟩

theorem OnlyRegister.reg_self (h : OnlyRegister rd v s t) (hrd : rd ≠ 0) : t.reg rd = v := by
  obtain ⟨⟨-, hreg⟩, -⟩ := h
  rw [hreg rd, if_pos ⟨rfl, hrd⟩]

theorem OnlyRegister.reg_of_ne (h : OnlyRegister rd v s t) (hr : r ≠ rd) : t.reg r = s.reg r := by
  obtain ⟨⟨-, hreg⟩, -⟩ := h
  rw [hreg r, if_neg (fun hrd => hr hrd.1)]

theorem OnlyRegister.fault_eq (h : OnlyRegister rd v s t) : t.fault = s.fault := by
  obtain ⟨-, -, -, -, -, hfault⟩ := h
  exact hfault

/-! ## Arms of the dispatch (R7): the shared operation that an instruction is -/

section ExecEquations
variable (s : State) (rd rs rt : RegIdx) (imm : Imm16) (target : Target26)

theorem exec_craft : exec (.craft rd rs rt) s =
    checkedWrite (addOvf (s.reg rs) (s.reg rt)) rd (s.reg rs + s.reg rt) s := rfl
theorem exec_punch : exec (.punch rd rs rt) s =
    checkedWrite (subOvf (s.reg rs) (s.reg rt)) rd (s.reg rs - s.reg rt) s := rfl
theorem exec_move : exec (.move rt rs imm) s =
    checkedWrite (addOvf (s.reg rs) (sext16 imm)) rt (s.reg rs + sext16 imm) s := rfl
theorem exec_split : exec (.split rd rs rt) s =
    if s.reg rt = 0 then raise .divideByZero s else writeAndFinish rd (quotient (s.reg rs) (s.reg rt)) s := rfl
theorem exec_strength : exec (.strength rd rs) s = writeAndFinish rd (s.reg rs <<< 1) s := rfl
theorem exec_weakness : exec (.weakness rd rs) s = writeAndFinish rd ((s.reg rs).sshiftRight 1) s := rfl
theorem exec_hop : exec (.hop target) s = finishAt (jumpTarget s.pcIn target) s := rfl
theorem exec_breakBlock : exec (.breakBlock rt rs imm) s = execBreak rt rs imm s := rfl
theorem exec_creeper : exec (.creeper rs imm) s = execCreeper rs imm s := rfl

end ExecEquations

end Sys2Proof.Machine
end

section
/-! PROOFS. The arithmetic, logical and thematic ALU instructions (spec/40_classic_alu.md, 41_classic_logic.md,
44_thematic_alu.md). -/

namespace Sys2Proof.Machine

variable {s t : State} {rd : RegIdx} {a b v : Word}

/-! ## Overflow and exact results (R58) -/

/-- No overflow of a sum exactly where the exact sum is a 32-bit number. -/
theorem addOvf_eq_false_iff : addOvf a b = false ↔ -2 ^ 31 ≤ a.toInt + b.toInt ∧ a.toInt + b.toInt < 2 ^ 31 := by
  have hcore : addOvf a b = a.saddOverflow b := (BitVec.saddOverflow_eq a b).symm
  rw [hcore, BitVec.saddOverflow]
  simp only [Bool.or_eq_false_iff, decide_eq_false_iff_not]
  omega

/-- No overflow of a difference exactly where the exact difference is a 32-bit number. -/
theorem subOvf_eq_false_iff : subOvf a b = false ↔ -2 ^ 31 ≤ a.toInt - b.toInt ∧ a.toInt - b.toInt < 2 ^ 31 := by
  have hcore : subOvf a b = a.ssubOverflow b := by
    rw [BitVec.ssubOverflow_eq, subOvf]
    cases a.msb <;> cases b.msb <;> simp
  rw [hcore, BitVec.ssubOverflow]
  simp only [Bool.or_eq_false_iff, decide_eq_false_iff_not]
  omega

theorem toInt_add_of_no_addOvf (h : addOvf a b = false) : (a + b).toInt = a.toInt + b.toInt := by
  obtain ⟨hlo, hhi⟩ := addOvf_eq_false_iff.mp h
  rw [BitVec.toInt_add, Int.bmod_eq_of_le] <;> omega

theorem toInt_sub_of_no_subOvf (h : subOvf a b = false) : (a - b).toInt = a.toInt - b.toInt := by
  obtain ⟨hlo, hhi⟩ := subOvf_eq_false_iff.mp h
  rw [BitVec.toInt_sub, Int.bmod_eq_of_le] <;> omega

/-- A checked result without overflow is written, and nothing else changes. -/
theorem checkedWrite_onlyRegister (rd : RegIdx) (v : Word) (s : State) :
    ∃ t, checkedWrite false rd v s = .next t ∧ OnlyRegister rd v s t :=
  writeAndFinish_onlyRegister rd v s

/-- The exact sum of two registers or of a register and an immediate, written where it is in range. -/
theorem checkedWrite_add_inRange (rd : RegIdx) (s : State) (hlo : -2 ^ 31 ≤ a.toInt + b.toInt)
    (hhi : a.toInt + b.toInt < 2 ^ 31) :
    ∃ t v, checkedWrite (addOvf a b) rd (a + b) s = .next t ∧ v.toInt = a.toInt + b.toInt ∧ OnlyRegister rd v s t := by
  have hovf := addOvf_eq_false_iff.mpr ⟨hlo, hhi⟩
  obtain ⟨t, ht, honly⟩ := checkedWrite_onlyRegister rd (a + b) s
  exact ⟨t, a + b, hovf ▸ ht, toInt_add_of_no_addOvf hovf, honly⟩

theorem checkedWrite_sub_inRange (rd : RegIdx) (s : State) (hlo : -2 ^ 31 ≤ a.toInt - b.toInt)
    (hhi : a.toInt - b.toInt < 2 ^ 31) :
    ∃ t v, checkedWrite (subOvf a b) rd (a - b) s = .next t ∧ v.toInt = a.toInt - b.toInt ∧ OnlyRegister rd v s t := by
  have hovf := subOvf_eq_false_iff.mpr ⟨hlo, hhi⟩
  obtain ⟨t, ht, honly⟩ := checkedWrite_onlyRegister rd (a - b) s
  exact ⟨t, a - b, hovf ▸ ht, toInt_sub_of_no_subOvf hovf, honly⟩

/-- Settles O14: in range there is no overflow, so the wrapped result is the exact one. -/
theorem checkedArithmeticCompletesInRange : Obligations.CheckedArithmeticCompletesInRange := by
  intro s rd rs rt imm
  refine ⟨checkedWrite_add_inRange rd s, checkedWrite_sub_inRange rd s, fun hlo hhi => ?_⟩
  rw [← toInt_sext16] at hlo hhi ⊢
  exact checkedWrite_add_inRange rt s hlo hhi

/-- On overflow the fault is recorded and nothing else changes. -/
theorem checkedWrite_overflow (rd : RegIdx) (v : Word) (s : State) :
    checkedWrite true rd v s = .next (faultedAt s .arithmeticOverflow 12) := rfl

theorem addOvf_of_outOfRange (h : a.toInt + b.toInt < -2 ^ 31 ∨ 2 ^ 31 ≤ a.toInt + b.toInt) : addOvf a b = true := by
  rw [← Bool.not_eq_false, addOvf_eq_false_iff]
  omega

theorem subOvf_of_outOfRange (h : a.toInt - b.toInt < -2 ^ 31 ∨ 2 ^ 31 ≤ a.toInt - b.toInt) : subOvf a b = true := by
  rw [← Bool.not_eq_false, subOvf_eq_false_iff]
  omega

/-- Settles O15: out of range is overflow. -/
theorem checkedArithmeticFaultsOutOfRange : Obligations.CheckedArithmeticFaultsOutOfRange := by
  intro s rd rs rt imm
  refine ⟨fun h => ?_, fun h => ?_, fun h => ?_⟩
  · rw [exec_craft, addOvf_of_outOfRange h, checkedWrite_overflow]
  · rw [exec_punch, subOvf_of_outOfRange h, checkedWrite_overflow]
  · rw [← toInt_sext16] at h
    rw [exec_move, addOvf_of_outOfRange h, checkedWrite_overflow]

/-- A checked result that raised no fault was in range, was written, and nothing else changed. -/
theorem checkedWrite_done {ovf : Bool} (h : checkedWrite ovf rd v s = .next t) (ht : t.fault = none) :
    ovf = false ∧ OnlyRegister rd v s t := by
  obtain ⟨-, rfl⟩ | ⟨hovf, rfl⟩ := checkedWrite_next.mp h
  · cases ht
  · exact ⟨hovf, onlyRegister_setReg rd v s⟩

/-- Settles O18: the sum did not overflow, so taking the addend off again gives a register's own value, in range. -/
theorem punchUndoesCraft : Obligations.PunchUndoesCraft := by
  intro s t rd rs rt rd' hrd hne hs h ht
  obtain ⟨hovf, honly⟩ := checkedWrite_done h ht
  have hsum := toInt_add_of_no_addOvf hovf
  have hback : subOvf (s.reg rs + s.reg rt) (s.reg rt) = false := by
    have hlo := (s.reg rs).le_toInt
    have hhi := (s.reg rs).toInt_lt
    rw [subOvf_eq_false_iff, hsum]
    omega
  rw [exec_punch, honly.reg_self hrd, honly.reg_of_ne hne.symm, hback, BitVec.add_sub_cancel]
  exact checkedWrite_onlyRegister rd' (s.reg rs) t

/-! ## split (R62) -/

/-- Outside the corner the quotient fits in 32 bits, so it is the truncated one. -/
theorem toInt_quotient (h : ¬ (a = 0x80000000 ∧ b = 0xFFFFFFFF)) : (quotient a b).toInt = a.toInt.tdiv b.toInt := by
  have hcorner : a ≠ BitVec.intMin 32 ∨ b ≠ -1#32 := not_and_or.mp h
  rw [quotient, if_neg h, BitVec.toInt_ofInt, ← BitVec.toInt_sdiv, BitVec.toInt_sdiv_of_ne_or_ne a b hcorner]

/-- The remainder of truncated division is smaller than the divisor and has the dividend's sign. -/
theorem tmod_spec (x : Int) {y : Int} (hy : y ≠ 0) : |x.tmod y| < |y| ∧ 0 ≤ x.tmod y * x := by
  constructor
  · rw [Int.abs_eq_natAbs, Int.abs_eq_natAbs, Int.natAbs_tmod]
    exact_mod_cast Nat.mod_lt _ (by omega)
  · rcases le_total 0 x with hx | hx
    · exact mul_nonneg (Int.tmod_nonneg y hx) hx
    · have hneg : 0 ≤ (-x).tmod y := Int.tmod_nonneg y (by omega)
      rw [Int.neg_tmod] at hneg
      exact mul_nonneg_of_nonpos_of_nonpos (by omega) hx

/-- Settles O16: the quotient is the truncated one, and its remainder is tmod. -/
theorem splitTruncatesTowardZero : Obligations.SplitTruncatesTowardZero := by
  intro s rd rs rt hrt
  obtain ⟨t, ht, honly⟩ := writeAndFinish_onlyRegister rd (quotient (s.reg rs) (s.reg rt)) s
  refine ⟨t, _, by rw [exec_split, if_neg hrt, ht], honly, fun hcorner => if_pos hcorner, fun hcorner => ?_⟩
  have hy : (s.reg rt).toInt ≠ 0 := fun h => hrt (BitVec.eq_of_toInt_eq (by simpa using h))
  refine ⟨(s.reg rs).toInt.tmod (s.reg rt).toInt, ?_, tmod_spec _ hy⟩
  rw [toInt_quotient hcorner, Int.tdiv_mul_add_tmod]

/-- Settles O17: the branch of the zero divisor raises and writes nothing. -/
theorem splitByZeroFaults : Obligations.SplitByZeroFaults := by
  intro s rd rs rt hrt
  rw [exec_split, if_pos hrt, raise, faultRecord, faultedAt]
  rfl

/-! ## Logic and the thematic operations (R63, R64, R69 to R75) -/

theorem shiftLeft_one_eq_add (x : Word) : x <<< 1 = x + x := by
  apply BitVec.eq_of_toNat_eq
  rw [BitVec.toNat_shiftLeft, BitVec.toNat_add, Nat.shiftLeft_eq]
  omega

theorem toInt_sshiftRight_one (x : Word) : (x.sshiftRight 1).toInt = x.toInt / 2 := by
  rw [BitVec.toInt_sshiftRight, Int.shiftRight_eq_div_pow]
  rfl

theorem sshiftRight_one_eq (x : Word) : x.sshiftRight 1 = BitVec.ofInt 32 (x.toInt / 2) := by
  rw [← toInt_sshiftRight_one, BitVec.ofInt_toInt]

/-- Settles O21: each of the nine writes one value and finishes. -/
theorem singleResultInstructionsOnlyWriteTheirRegister :
    Obligations.SingleResultInstructionsOnlyWriteTheirRegister := by
  intro s rd rs rt
  refine ⟨writeAndFinish_onlyRegister .., writeAndFinish_onlyRegister .., writeAndFinish_onlyRegister .., ?_, ?_,
    writeAndFinish_onlyRegister .., writeAndFinish_onlyRegister .., writeAndFinish_onlyRegister ..,
    writeAndFinish_onlyRegister ..⟩
  · rw [exec_strength, shiftLeft_one_eq_add]
    exact writeAndFinish_onlyRegister ..
  · rw [exec_weakness, sshiftRight_one_eq]
    exact writeAndFinish_onlyRegister ..

/-- What is true of the value written is true of the destination afterwards, unless that is index 0; no fault is raised. -/
theorem writeAndFinish_result {P : Word → Prop} (rd : RegIdx) (s : State) (hv : P v) :
    ∃ t, writeAndFinish rd v s = .next t ∧ t.fault = s.fault ∧ (rd ≠ 0 → P (t.reg rd)) := by
  obtain ⟨t, ht, honly⟩ := writeAndFinish_onlyRegister rd v s
  exact ⟨t, ht, honly.fault_eq, fun hrd => (honly.reg_self hrd).symm ▸ hv⟩

/-- Settles O19: the rows of stack and fletch fix opcode and funct alone, and the results are bitwise. -/
theorem logicalResultsBitByBit : Obligations.LogicalResultsBitByBit := by
  refine ⟨fun w hop hf => decode_of_fields (r := .stack) hop hf nofun,
    fun w hop hf => decode_of_fields (r := .fletch) hop hf nofun, fun s rd rs rt => ⟨?_, ?_⟩⟩
  · exact writeAndFinish_result (P := fun x => ∀ k < 32, x.getLsbD k = ((s.reg rs).getLsbD k && (s.reg rt).getLsbD k))
      rd s fun k _ => BitVec.getLsbD_and
  · exact writeAndFinish_result (P := fun x => ∀ k < 32, x.getLsbD k = ((s.reg rs).getLsbD k || (s.reg rt).getLsbD k))
      rd s fun k _ => BitVec.getLsbD_or

/-- Flipping bit 0 and no other. -/
theorem getLsbD_xor_one (x : Word) (k : Nat) (hk : k < 32) :
    (x ^^^ 1).getLsbD k = if k = 0 then !x.getLsbD 0 else x.getLsbD k := by
  have hone : (1 : Word).getLsbD k = decide (k = 0) := by interval_cases k <;> rfl
  rw [BitVec.getLsbD_xor, hone]
  by_cases h0 : k = 0 <;> simp [h0]

/-- Adding a constant wraps like the signed sum. -/
theorem add_eq_ofInt (x y : Word) : x + y = BitVec.ofInt 32 (x.toInt + y.toInt) := by
  rw [BitVec.ofInt_add, BitVec.ofInt_toInt, BitVec.ofInt_toInt]

theorem sub_eq_ofInt (x y : Word) : x - y = BitVec.ofInt 32 (x.toInt - y.toInt) := by
  apply BitVec.eq_of_toInt_eq
  rw [BitVec.toInt_sub, BitVec.toInt_ofInt]

/-- Settles O20: the rows fix opcode, funct and the shared functs' shamt; the results are the wrapped integer ones. -/
theorem thematicResultsWrapSilently : Obligations.ThematicResultsWrapSilently := by
  refine ⟨fun w hop => ⟨fun hf => ?_, fun hf hs => ?_, fun hf hs => ?_, fun hf hs => ?_, fun hf hs => ?_,
    fun hf => ?_, fun hf => ?_⟩, fun s rd rs => ⟨?_, ?_, ?_, ?_, ?_, ?_, ?_⟩⟩
  · exact decode_of_fields (r := .torch) hop hf nofun
  · exact decode_of_fields (r := .strength) hop hf fun _ => hs
  · exact decode_of_fields (r := .weakness) hop hf fun _ => hs
  · exact decode_of_fields (r := .speed) hop hf fun _ => hs
  · exact decode_of_fields (r := .slowness) hop hf fun _ => hs
  · exact decode_of_fields (r := .redstone) hop hf nofun
  · exact decode_of_fields (r := .farm) hop hf nofun
  · refine writeAndFinish_result (P := fun x => ∀ k < 32, x.getLsbD k = !(s.reg rs).getLsbD k) rd s fun k hk => ?_
    simp [hk]
  · refine writeAndFinish_result (P := (· = _)) rd s ?_
    rw [shiftLeft_one_eq_add, add_eq_ofInt, two_mul]
  · refine writeAndFinish_result (P := fun x => 2 * x.toInt ≤ _ ∧ _ < 2 * x.toInt + 2) rd s ?_
    rw [toInt_sshiftRight_one]
    omega
  · exact writeAndFinish_result (P := (· = _)) rd s (add_eq_ofInt _ 5)
  · exact writeAndFinish_result (P := (· = _)) rd s (sub_eq_ofInt _ 5)
  · refine writeAndFinish_result (P := fun x => x.getLsbD 0 = (!(s.reg rs).getLsbD 0) ∧
      ∀ k < 32, k ≠ 0 → x.getLsbD k = (s.reg rs).getLsbD k) rd s ⟨?_, ?_⟩
    · rw [getLsbD_xor_one _ 0 (by omega), if_pos rfl]
    · intro k hk h0
      rw [getLsbD_xor_one _ k hk, if_neg h0]
  · exact writeAndFinish_result (P := (· = _)) rd s (add_eq_ofInt _ 1)

/-- Writing `f` of a register and then `f` of the result gives the first value where `f` undoes itself. -/
theorem writeAndFinish_twice {f : Word → Word} (hf : ∀ x, f (f x) = x) (s : State) (rs rd' : RegIdx) (hrd : rd ≠ 0) :
    ∃ t u, writeAndFinish rd (f (s.reg rs)) s = .next t ∧ writeAndFinish rd' (f (t.reg rd)) t = .next u ∧
      OnlyRegister rd' (s.reg rs) t u := by
  obtain ⟨t, ht, honly⟩ := writeAndFinish_onlyRegister rd (f (s.reg rs)) s
  obtain ⟨u, hu, honly'⟩ := writeAndFinish_onlyRegister rd' (f (t.reg rd)) t
  refine ⟨t, u, ht, hu, ?_⟩
  rwa [honly.reg_self hrd, hf] at honly'

/-- Settles O22: complement and exclusive or with 1 undo themselves. -/
theorem torchAndRedstoneUndoThemselves : Obligations.TorchAndRedstoneUndoThemselves := by
  intro s rd rs rd' hrd
  refine ⟨writeAndFinish_twice (f := (~~~·)) (fun x => BitVec.not_not) s rs rd' hrd,
    writeAndFinish_twice (f := (· ^^^ 1)) (fun x => ?_) s rs rd' hrd⟩
  rw [BitVec.xor_assoc, BitVec.xor_self, BitVec.xor_zero]

end Sys2Proof.Machine
end

section
/-! PROOFS. The memory instructions (spec/42_classic_memory.md, 45_thematic_memory.md; 20_memory.md R28 to R34): what each
does where its accesses succeed and where one fails. -/

namespace Sys2Proof.Machine

variable {s t : State} {rt rs : RegIdx} {imm : Imm16} {a v : Word} {k : FaultKind}

/-! ## What the accesses of another state see -/

theorem ea_congr (h : t.reg rs = s.reg rs) (imm : Imm16) : t.ea rs imm = s.ea rs imm := by rw [State.ea, State.ea, h]

theorem validR_congr (h : t.memMap = s.memMap) (a : Word) : t.validR a = s.validR a := by
  rw [State.validR, State.validR, h]

theorem validW_congr (h : t.memMap = s.memMap) (a : Word) : t.validW a = s.validW a := by
  rw [State.validW, State.validW, h]

/-! ## Faults (R83, R84) -/

theorem memRead_misaligned (h : aligned a = false) : memRead s a = .error (.address .load a .misaligned) :=
  memRead_error.mpr (.inl ⟨h, rfl⟩)

theorem memRead_outOfRange (ha : aligned a = true) (h : s.validR a = false) :
    memRead s a = .error (.address .load a .outOfRange) := memRead_error.mpr (.inr ⟨ha, h, rfl⟩)

theorem memWrite_misaligned (h : aligned a = false) : memWrite s a v = .error (.address .store a .misaligned) :=
  memWrite_error.mpr (.inl ⟨h, rfl⟩)

theorem memWrite_outOfRange (ha : aligned a = true) (h : s.validW a = false) :
    memWrite s a v = .error (.address .store a .outOfRange) := memWrite_error.mpr (.inr ⟨ha, h, rfl⟩)

/-! ## Stores (R65, R76) -/

/-- A word written is the one change of the memory. -/
theorem storedOnly_writeWord (hwf : s.mem.wf = true) (h : t.mem = s.mem.writeWord a v) : StoredOnly a v s t := by
  rw [StoredOnly, h]
  exact ⟨readWord_writeWord hwf a v, fun _ hb => readByte_writeWord_outside hwf a v hb⟩

theorem storeWord_done (ha : aligned (s.ea rs imm) = true) (hw : s.validW (s.ea rs imm) = true) :
    storeWord rt rs imm s = finish { s with mem := s.mem.writeWord (s.ea rs imm) (s.reg rt) } := by
  rw [storeWord, memWrite_ok.mpr ⟨ha, hw, rfl⟩]

theorem storeWord_fault (h : memWrite s (s.ea rs imm) (s.reg rt) = .error k) : storeWord rt rs imm s = raise k s := by
  rw [storeWord, h]

/-- A store that succeeds changes the addressed word and the PC only. -/
theorem storeWord_stores (rt : RegIdx) (hwf : s.mem.wf = true) (ha : aligned (s.ea rs imm) = true)
    (hw : s.validW (s.ea rs imm) = true) :
    ∃ t, storeWord rt rs imm s = .next t ∧ StoredOnly (s.ea rs imm) (s.reg rt) s t ∧ SameRegs s t ∧
      t.pc = s.pc + 4 ∧ t.cnt = s.cnt ∧ SameHost s t ∧ t.fault = s.fault :=
  ⟨_, storeWord_done ha hw, storedOnly_writeWord hwf rfl, fun _ => rfl, rfl, rfl, ⟨rfl, rfl, rfl, rfl⟩, rfl⟩

/-- Settles O23: chest and build are one operation. -/
theorem storesWriteOneWord : Obligations.StoresWriteOneWord :=
  fun _ rt _ _ hwf ha hw => ⟨storeWord_stores rt hwf ha hw, storeWord_stores rt hwf ha hw⟩

/-! ## Loads (R66) -/

theorem exec_enchant_done (ha : aligned (s.ea rs imm) = true) (hr : s.validR (s.ea rs imm) = true) :
    exec (.enchant rt rs imm) s = writeAndFinish rt (s.mem.readWord (s.ea rs imm)) s :=
  exec_enchant_next.mpr (.inr ⟨_, memRead_ok.mpr ⟨ha, hr, rfl⟩, rfl⟩)

theorem exec_enchant_fault (h : memRead s (s.ea rs imm) = .error k) : exec (.enchant rt rs imm) s = raise k s :=
  exec_enchant_next.mpr (.inl ⟨k, h, rfl⟩)

/-- Settles O24: a load that succeeds writes one register. -/
theorem enchantLoadsTheWord : Obligations.EnchantLoadsTheWord := by
  intro s rt rs imm ha hr
  rw [exec_enchant_done ha hr]
  exact writeAndFinish_onlyRegister ..

/-- Settles O25: each failing access is named by `memRead` or `memWrite`, and raising it changes the record alone. -/
theorem storeAndLoadFaultsArePrecise : Obligations.StoreAndLoadFaultsArePrecise := by
  intro s rt rs imm
  refine ⟨fun ha => ⟨?_, ?_, ?_⟩, fun ha hw => ⟨?_, ?_⟩, fun ha hr => ?_⟩
  · exact storeWord_fault (memWrite_misaligned ha)
  · exact storeWord_fault (memWrite_misaligned ha)
  · exact exec_enchant_fault (memRead_misaligned ha)
  · exact storeWord_fault (memWrite_outOfRange ha hw)
  · exact storeWord_fault (memWrite_outOfRange ha hw)
  · exact exec_enchant_fault (memRead_outOfRange ha hr)

/-- A store that raised no fault, and then a load through the same base register. -/
theorem storeWord_then_enchant (rt' : RegIdx) (hwf : s.mem.wf = true) (hr : s.validR (s.ea rs imm) = true)
    (h : storeWord rt rs imm s = .next t) (ht : t.fault = none) :
    ∃ u, exec (.enchant rt' rs imm) t = .next u ∧ OnlyRegister rt' (s.reg rt) t u := by
  obtain ⟨ha, hregs, hmap, hmem⟩ : aligned (s.ea rs imm) = true ∧ t.regs = s.regs ∧ t.memMap = s.memMap ∧
      t.mem = s.mem.writeWord (s.ea rs imm) (s.reg rt) := by
    obtain ⟨k, -, rfl⟩ | ⟨ha, -, rfl⟩ := storeWord_next.mp h
    · cases ht
    · exact ⟨ha, rfl, rfl, rfl⟩
  have hea : t.ea rs imm = s.ea rs imm := ea_congr (reg_of_regs_eq hregs rs) imm
  rw [exec_enchant_done (hea ▸ ha) ((validR_congr hmap _).trans (hea ▸ hr)), hea, hmem, readWord_writeWord hwf]
  exact writeAndFinish_onlyRegister ..

/-- Settles O26: the load reads back the word stored. -/
theorem storeThenLoadRoundTrip : Obligations.StoreThenLoadRoundTrip := by
  intro s t rt rs rt' imm hwf _ hr h ht
  obtain h | h := h
  · exact storeWord_then_enchant rt' hwf hr h ht
  · exact storeWord_then_enchant rt' hwf hr h ht

/-! ## break (R77) -/

theorem exec_break_readFault (h : memRead s (s.ea rs imm) = .error k) :
    exec (.breakBlock rt rs imm) s = raise k s := by
  rw [exec_breakBlock, execBreak, h]

theorem exec_break_writeFault (ha : aligned (s.ea rs imm) = true) (hr : s.validR (s.ea rs imm) = true)
    (hw : s.validW (s.ea rs imm) = false) : exec (.breakBlock rt rs imm) s =
      raise (.address .store (s.ea rs imm) .outOfRange) (s.setReg rt (s.mem.readWord (s.ea rs imm))) := by
  rw [exec_breakBlock, execBreak, memRead_ok.mpr ⟨ha, hr, rfl⟩]
  simp only [memWrite_outOfRange (s := s.setReg rt _) ha hw]

theorem exec_break_done (ha : aligned (s.ea rs imm) = true) (hr : s.validR (s.ea rs imm) = true)
    (hw : s.validW (s.ea rs imm) = true) : exec (.breakBlock rt rs imm) s =
      finish { s.setReg rt (s.mem.readWord (s.ea rs imm)) with mem := s.mem.writeWord (s.ea rs imm) 0 } := by
  rw [exec_breakBlock, execBreak, memRead_ok.mpr ⟨ha, hr, rfl⟩]
  simp only [memWrite_ok.mpr ⟨ha, (setReg_validW s rt _ _).trans hw, rfl⟩, setReg_mem]

/-- Settles O27: what break leaves where both its accesses succeed. -/
theorem breakTakesTheWord : Obligations.BreakTakesTheWord := by
  intro s rt rs imm hwf ha hr hw
  exact ⟨_, exec_break_done ha hr hw, registerWritten_of_regs_eq rfl, storedOnly_writeWord hwf rfl, rfl, rfl,
    ⟨rfl, rfl, rfl, rfl⟩, rfl⟩

/-- Settles O28: the two failing accesses of break. -/
theorem breakFaultsKeepTheLoadedRegister : Obligations.BreakFaultsKeepTheLoadedRegister := by
  intro s rt rs imm
  refine ⟨fun ha => ?_, fun ha hr => ?_, fun ha hr hw => ?_⟩
  · exact exec_break_readFault (memRead_misaligned ha)
  · exact exec_break_readFault (memRead_outOfRange ha hr)
  · exact ⟨_, exec_break_writeFault ha hr hw, registerWritten_of_regs_eq rfl, rfl⟩

/-- Everything break can do: the read fault with nothing done, the write fault with the register written, or Done. -/
theorem exec_break_cases (rt rs : RegIdx) (imm : Imm16) (s : State) :
    (∃ k, memRead s (s.ea rs imm) = .error k ∧ exec (.breakBlock rt rs imm) s = raise k s) ∨
    (aligned (s.ea rs imm) = true ∧ s.validR (s.ea rs imm) = true ∧ s.validW (s.ea rs imm) = false ∧
      exec (.breakBlock rt rs imm) s =
        raise (.address .store (s.ea rs imm) .outOfRange) (s.setReg rt (s.mem.readWord (s.ea rs imm)))) ∨
    (aligned (s.ea rs imm) = true ∧ s.validR (s.ea rs imm) = true ∧ s.validW (s.ea rs imm) = true ∧
      exec (.breakBlock rt rs imm) s =
        finish { s.setReg rt (s.mem.readWord (s.ea rs imm)) with mem := s.mem.writeWord (s.ea rs imm) 0 }) := by
  cases hread : memRead s (s.ea rs imm) with
  | error k => exact .inl ⟨k, rfl, exec_break_readFault hread⟩
  | ok v =>
    obtain ⟨ha, hr, rfl⟩ := memRead_ok.mp hread
    cases hw : s.validW (s.ea rs imm) with
    | false => exact .inr (.inl ⟨ha, hr, rfl, exec_break_writeFault ha hr hw⟩)
    | true => exact .inr (.inr ⟨ha, hr, rfl, exec_break_done ha hr hw⟩)

/-- Zeroing a word that was just zeroed changes no byte. -/
theorem readByte_writeWord_twice {m : Memory} (h : m.wf = true) (a v : Word) (b : Nat) :
    ((m.writeWord a v).writeWord a v).readByte b = (m.writeWord a v).readByte b := by
  rw [readByte_writeWord (writeWord_wf h a v), readByte_writeWord h]
  split_ifs <;> rfl

/-- A break that raised no fault: its accesses succeeded, and what it left. -/
theorem exec_break_next_done (h : exec (.breakBlock rt rs imm) s = .next t) (ht : t.fault = none) :
    aligned (s.ea rs imm) = true ∧ s.validR (s.ea rs imm) = true ∧ s.validW (s.ea rs imm) = true ∧
      t = { s.setReg rt (s.mem.readWord (s.ea rs imm)) with
        mem := s.mem.writeWord (s.ea rs imm) 0, pc := s.pc + instrBytes } := by
  obtain ⟨k, -, hk⟩ | ⟨-, -, -, hk⟩ | ⟨ha, hr, hw, hdone⟩ := exec_break_cases rt rs imm s
  · obtain rfl := raise_next.mp (hk.symm.trans h)
    cases ht
  · obtain rfl := raise_next.mp (hk.symm.trans h)
    cases ht
  · exact ⟨ha, hr, hw, finish_next.mp (hdone.symm.trans h)⟩

/-- Settles O29: the first break left a zeroed word, at an address that the base register still gives. -/
theorem secondBreakLoadsZero : Obligations.SecondBreakLoadsZero := by
  intro s t rt rs rt' imm hwf hbase _ h ht
  obtain ⟨ha, hr, hw, hleft⟩ := exec_break_next_done h ht
  have hmap : t.memMap = s.memMap := by rw [hleft]; rfl
  have hmem : t.mem = s.mem.writeWord (s.ea rs imm) 0 := by rw [hleft]
  have hreg : t.reg rs = s.reg rs := by
    have hregs : t.regs = (s.setReg rt (s.mem.readWord (s.ea rs imm))).regs := by rw [hleft]
    rw [reg_of_regs_eq hregs, reg_setReg, if_neg]
    rintro ⟨rfl, hrt⟩
    exact hbase.elim (· rfl) hrt
  have hea : t.ea rs imm = s.ea rs imm := ea_congr hreg imm
  have hzero : t.mem.readWord (s.ea rs imm) = 0 := hmem ▸ readWord_writeWord hwf (s.ea rs imm) 0
  refine ⟨_, exec_break_done (hea ▸ ha) ((validR_congr hmap _).trans (hea ▸ hr))
    ((validW_congr hmap _).trans (hea ▸ hw)), registerWritten_of_regs_eq ?_, rfl, rfl, fun b => ?_,
    ⟨rfl, rfl, rfl, rfl⟩, rfl⟩
  · rw [hea, hzero]
  · rw [hea, hmem]
    exact readByte_writeWord_twice hwf (s.ea rs imm) 0 b

end Sys2Proof.Machine
end

section
/-! PROOFS. creeper, hop and the counter (spec/45_thematic_memory.md R78; 43_classic_control.md; 46_thematic_counter.md). -/

namespace Sys2Proof.Machine

variable {s t : State} {rs : RegIdx} {imm : Imm16} {a : Word} {k : FaultKind} {n j : Nat}

/-! ## The run of creeper (R78, D9) -/

/-- The words of the run are those whose distance from the start is at most the offset. -/
theorem lt_creeperCount_iff (i : Nat) : i < creeperCount imm ↔ 4 * (i : Int) ≤ imm.toInt := by
  rw [creeperCount, toInt_sext16]
  split_ifs <;> omega

theorem ofNat_four_mul (i : Nat) : BitVec.ofNat 32 (4 * i) = 4 * BitVec.ofNat 32 i := BitVec.ofNat_mul 4 i

/-- Every word of a run is aligned as its start is. -/
theorem aligned_run (a : Word) (i : Nat) : aligned (a + 4 * BitVec.ofNat 32 i) = aligned a := by
  rw [Bool.eq_iff_iff, aligned_iff, aligned_iff, ← ofNat_four_mul, BitVec.toNat_add, BitVec.toNat_ofNat]
  omega

/-- Where every word may be written, the whole run is zeroed. -/
theorem zeroWords_done (h : ∀ i < n, aligned (a + 4 * BitVec.ofNat 32 i) = true ∧
    s.validW (a + 4 * BitVec.ofNat 32 i) = true) : zeroWords n a s = ({ s with mem := zeroed n a s.mem }, none) := by
  obtain ⟨j, -, ⟨rfl, hz⟩ | ⟨hj, k, hk, -⟩⟩ := zeroWords_cases n a s
  · exact hz
  · obtain ⟨ha, hw⟩ := h j hj
    rw [memWrite_ok.mpr ⟨ha, hw, rfl⟩] at hk
    cases hk

/-- Where word `j` is the first that may not be written, the words before it are zeroed and its fault is reported. -/
theorem zeroWords_fault (hj : j < n) (h : ∀ i < j, aligned (a + 4 * BitVec.ofNat 32 i) = true ∧
    s.validW (a + 4 * BitVec.ofNat 32 i) = true) (hk : memWrite s (a + 4 * BitVec.ofNat 32 j) 0 = .error k) :
    zeroWords n a s = ({ s with mem := zeroed j a s.mem }, some k) := by
  have writes {i : Nat} (hi : aligned (a + 4 * BitVec.ofNat 32 i) = true ∧ s.validW (a + 4 * BitVec.ofNat 32 i) = true)
      (k : FaultKind) : memWrite s (a + 4 * BitVec.ofNat 32 i) 0 ≠ .error k := by
    rw [memWrite_ok.mpr ⟨hi.1, hi.2, rfl⟩]
    nofun
  obtain ⟨i, hall, ⟨rfl, -⟩ | ⟨-, k', hk', hz⟩⟩ := zeroWords_cases n a s
  · exact absurd hk (writes (hall j hj) k)
  · obtain hlt | rfl | hgt := lt_trichotomy i j
    · exact absurd hk' (writes (h i hlt) k')
    · obtain rfl : k' = k := Except.error.inj (hk'.symm.trans hk)
      exact hz
    · exact absurd hk (writes (hall j hgt) k)

theorem exec_creeper_done (h : ∀ i < creeperCount imm, aligned (s.reg rs + 4 * BitVec.ofNat 32 i) = true ∧
    s.validW (s.reg rs + 4 * BitVec.ofNat 32 i) = true) : exec (.creeper rs imm) s =
      finish { s with mem := zeroed (creeperCount imm) (s.reg rs) s.mem } := by
  rw [exec_creeper, execCreeper, zeroWords_done h]

theorem exec_creeper_fault (hj : j < creeperCount imm) (h : ∀ i < j, aligned (s.reg rs + 4 * BitVec.ofNat 32 i) = true ∧
    s.validW (s.reg rs + 4 * BitVec.ofNat 32 i) = true)
    (hk : memWrite s (s.reg rs + 4 * BitVec.ofNat 32 j) 0 = .error k) : exec (.creeper rs imm) s =
      raise k { s with mem := zeroed j (s.reg rs) s.mem } := by
  rw [exec_creeper, execCreeper, zeroWords_fault hj h hk]

/-- Everything creeper can do: Done with its whole run zeroed, or the fault of one word, those before it zeroed. -/
theorem exec_creeper_cases (rs : RegIdx) (imm : Imm16) (s : State) :
    ∃ j, (∀ i < j, aligned (s.reg rs + 4 * BitVec.ofNat 32 i) = true ∧
        s.validW (s.reg rs + 4 * BitVec.ofNat 32 i) = true) ∧
      ((j = creeperCount imm ∧ exec (.creeper rs imm) s = finish { s with mem := zeroed j (s.reg rs) s.mem }) ∨
        (j < creeperCount imm ∧ ∃ k, memWrite s (s.reg rs + 4 * BitVec.ofNat 32 j) 0 = .error k ∧
          exec (.creeper rs imm) s = raise k { s with mem := zeroed j (s.reg rs) s.mem })) := by
  obtain ⟨j, hall, ⟨rfl, -⟩ | ⟨hj, k, hk, -⟩⟩ := zeroWords_cases (creeperCount imm) (s.reg rs) s
  · exact ⟨_, hall, .inl ⟨rfl, exec_creeper_done hall⟩⟩
  · exact ⟨j, hall, .inr ⟨hj, k, hk, exec_creeper_fault hj hall hk⟩⟩

/-- Settles O30: the words of the run are `zeroed`'s. -/
theorem creeperZeroesExactlyItsRange : Obligations.CreeperZeroesExactlyItsRange := by
  intro s rs imm hwf _ hrun
  simp only [ofNat_four_mul, ← lt_creeperCount_iff] at hrun ⊢
  exact ⟨_, exec_creeper_done hrun, fun i hi => readWord_zeroed _ _ hwf hi,
    fun b hb => readByte_zeroed_outside _ _ hwf hb, fun _ => rfl, rfl, rfl, ⟨rfl, rfl, rfl, rfl⟩, rfl⟩

/-- Settles O31: the run has no word. -/
theorem creeperBackwardsDoesNothing : Obligations.CreeperBackwardsDoesNothing := by
  intro s rs imm hneg
  have hcount : creeperCount imm = 0 := if_pos (by rwa [toInt_sext16])
  rw [exec_creeper_done (by simp [hcount]), hcount]
  rfl

/-- Settles O32: a misaligned start faults at word 0, and in an aligned run only the map decides. -/
theorem creeperFaultKeepsEarlierZeroes : Obligations.CreeperFaultKeepsEarlierZeroes := by
  intro s rs imm
  refine ⟨fun hoff ha => ?_, fun j hwf ha hoff hbefore hw => ?_⟩
  · have hzero : s.reg rs + 4 * BitVec.ofNat 32 0 = s.reg rs := by simp
    exact exec_creeper_fault (j := 0) ((lt_creeperCount_iff 0).mpr (by simpa using hoff)) (by simp)
      (by rw [hzero]; exact memWrite_misaligned ha)
  · simp only [ofNat_four_mul] at hbefore hw ⊢
    have halign (i : Nat) : aligned (s.reg rs + 4 * BitVec.ofNat 32 i) = true := (aligned_run _ i).trans ha
    exact ⟨_, exec_creeper_fault ((lt_creeperCount_iff j).mpr hoff) (fun i hi => ⟨halign i, hbefore i hi⟩)
      (memWrite_outOfRange (halign j) hw), fun i hi => readWord_zeroed _ _ hwf hi,
      fun b hb => readByte_zeroed_outside _ _ hwf hb, rfl⟩

/-! ## hop (R46, R67) -/

/-- The bits of a region, a target and two zero bits put side by side. -/
theorem getLsbD_join (region : BitVec 4) (target : Target26) (k : Nat) :
    (region ++ target ++ (0 : BitVec 2) : BitVec 32).getLsbD k =
      if k < 2 then false else if k < 28 then target.getLsbD (k - 2) else region.getLsbD (k - 28) := by
  rw [BitVec.getLsbD_append, BitVec.getLsbD_append]
  grind

/-- The masked region and the shifted target lie side by side (R67). -/
theorem jumpTarget_eq (p : Word) (target : Target26) :
    jumpTarget p target = (p.extractLsb' 28 4 ++ target ++ (0 : BitVec 2) : BitVec 32) := by
  have hregion : ∀ k < 32, (0xF0000000#32).getLsbD k = decide (28 ≤ k) := by decide
  apply BitVec.eq_of_getLsbD_eq
  intro k hk
  change (p &&& 0xF0000000#32 ||| target.setWidth 32 <<< 2).getLsbD k = _
  rw [getLsbD_join, BitVec.getLsbD_or, BitVec.getLsbD_and, hregion k hk, BitVec.getLsbD_shiftLeft,
    BitVec.getLsbD_setWidth, BitVec.getLsbD_extractLsb']
  grind

/-- The low two bits of a hop target are 0 (R67). -/
theorem aligned_jumpTarget (p : Word) (target : Target26) : aligned (jumpTarget p target) = true := by
  rw [aligned, jumpTarget_eq, beq_iff_eq]
  apply BitVec.eq_of_getLsbD_eq
  intro k hk
  rw [BitVec.getLsbD_extractLsb', getLsbD_join]
  simp [hk]

/-- Settles O33: the target read as a concatenation. -/
theorem hopJoinsRegionAndTarget : Obligations.HopJoinsRegionAndTarget := by
  intro s target
  refine ⟨?_, fun t ht => ?_⟩
  · rw [exec_hop, jumpTarget_eq]
    rfl
  · rw [finishAt_next.mp ht]
    exact aligned_jumpTarget _ target

/-! ## The counter (R80 to R82) -/

/-- Settles O34: summon writes the incremented counter, reset clears it. -/
theorem counterInstructionsComplete : Obligations.CounterInstructionsComplete :=
  fun _ _ => ⟨⟨_, rfl, rfl, registerWritten_of_regs_eq rfl, rfl, fun _ => rfl, ⟨rfl, rfl, rfl, rfl⟩, rfl⟩, rfl⟩

/-- A list of instructions whose first part completes goes on with the second from there. -/
theorem execAll_append {l l' : List Instr} (h : execAll l s = .next t) : execAll (l ++ l') s = execAll l' t := by
  induction l generalizing s with
  | nil => obtain rfl : s = t := by simpa [execAll] using h
           rfl
  | cons i rest ih =>
    rw [List.cons_append, execAll]
    rw [execAll] at h
    split at h
    · exact ih h
    · cases h
    · cases h

/-- Summons count up by one each and leave memory as it is. -/
theorem execAll_summons (l : List RegIdx) (s : State) :
    ∃ t, execAll (l.map .summon) s = .next t ∧ t.cnt = s.cnt + BitVec.ofNat 32 l.length ∧ SameMem s t := by
  induction l generalizing s with
  | nil => exact ⟨s, rfl, by simp, fun _ => rfl⟩
  | cons rd rest ih =>
    obtain ⟨⟨s', hs', hcnt, -, -, hmem, -⟩, -⟩ := counterInstructionsComplete s rd
    obtain ⟨t, ht, hcnt', hmem'⟩ := ih s'
    refine ⟨t, ?_, ?_, fun a => (hmem' a).trans (hmem a)⟩
    · rw [List.map_cons, execAll, hs']
      exact ht
    · rw [hcnt', hcnt, List.length_cons, BitVec.ofNat_add, BitVec.add_assoc, BitVec.add_comm (1 : Word)]
      rfl

/-- Settles O35: reset forgets what was counted, and each summon after it adds one. -/
theorem summonsAfterResetCountFromOne : Obligations.SummonsAfterResetCountFromOne := by
  intro s earlier later rd
  obtain ⟨s1, h1, -, hmem1⟩ := execAll_summons earlier s
  obtain ⟨-, hreset⟩ := counterInstructionsComplete s1 rd
  obtain ⟨s2, h2, hcnt2, hmem2⟩ := execAll_summons later { s1 with cnt := 0, pc := s1.pc + 4 }
  obtain ⟨⟨t, ht, hcnt, ⟨-, hreg⟩, -, hmem, -⟩, -⟩ := counterInstructionsComplete s2 rd
  have hcount : s2.cnt + 1 = BitVec.ofNat 32 (later.length + 1) := by
    rw [hcnt2, BitVec.ofNat_add]
    exact congrArg (· + 1) (BitVec.zero_add _)
  refine ⟨t, ?_, hcnt.trans hcount, fun hrd => ?_, fun a => (hmem a).trans ((hmem2 a).trans (hmem1 a))⟩
  · simp only [List.append_assoc]
    rw [execAll_append h1, List.singleton_append, execAll, hreset]
    simp only [execAll_append h2, execAll, ht]
  · rw [hreg rd, if_pos ⟨rfl, hrd⟩, hcount]

end Sys2Proof.Machine
end

section
/-! PROOFS. Every instruction (spec/00_scope.md R6, R7; 60_exceptions.md R83 to R90): each dispatch ends Done, or raises one
fault whose raisers, partial effects and record are said once, by `exec_cases`. -/

namespace Sys2Proof.Machine

variable {i : Instr} {s s' t : State} {k : FaultKind} {r : FaultRecord} {a v : Word}

/-! ## The two ends of a dispatch -/

/-- The PC after Done: hop's target, else the sequential advance (R18, R68). -/
def nextPc (i : Instr) (s : State) : Word :=
  match i with
  | .hop target => jumpTarget s.pcIn target
  | _ => s.pc + 4

/-- What every instruction keeps when it is Done. -/
structure DoneIn (i : Instr) (s t : State) : Prop where
  pc : t.pc = nextPc i s
  host : SameHost s t
  fault : t.fault = s.fault
  mem_wf : s.mem.wf = true → t.mem.wf = true

/-- Instruction `i` raises fault `k` in `s`, after the partial effects that give `s'` (R85 to R90). -/
def RaisesIn (i : Instr) (s : State) (k : FaultKind) (s' : State) : Prop :=
  match i with
  | .craft _ _ _ | .punch _ _ _ | .move _ _ _ => k = .arithmeticOverflow ∧ s' = s
  | .split _ _ _ => k = .divideByZero ∧ s' = s
  | .chest rt rs imm | .build rt rs imm => memWrite s (s.ea rs imm) (s.reg rt) = .error k ∧ s' = s
  | .enchant _ rs imm => memRead s (s.ea rs imm) = .error k ∧ s' = s
  | .breakBlock rt rs imm =>
    (memRead s (s.ea rs imm) = .error k ∧ s' = s) ∨
      (memWrite s (s.ea rs imm) 0 = .error k ∧ s' = s.setReg rt (s.mem.readWord (s.ea rs imm)))
  | .creeper rs imm => ∃ j < creeperCount imm, memWrite s (s.reg rs + 4 * BitVec.ofNat 32 j) 0 = .error k ∧
      s' = { s with mem := zeroed j (s.reg rs) s.mem }
  | _ => False

theorem checkedWrite_cases (ovf : Bool) (rd : RegIdx) (v : Word) (s : State) :
    checkedWrite ovf rd v s = raise .arithmeticOverflow s ∨ checkedWrite ovf rd v s = writeAndFinish rd v s := by
  cases ovf
  · exact .inr rfl
  · exact .inl rfl

theorem storeWord_cases (rt rs : RegIdx) (imm : Imm16) (s : State) :
    (∃ k, memWrite s (s.ea rs imm) (s.reg rt) = .error k ∧ storeWord rt rs imm s = raise k s) ∨
      storeWord rt rs imm s = finish { s with mem := s.mem.writeWord (s.ea rs imm) (s.reg rt) } := by
  cases h : memWrite s (s.ea rs imm) (s.reg rt) with
  | error k => exact .inl ⟨k, rfl, storeWord_fault h⟩
  | ok s' =>
    obtain ⟨ha, hw, -⟩ := memWrite_ok.mp h
    exact .inr (storeWord_done ha hw)

/-- Every dispatch ends Done or raises one fault. -/
theorem exec_cases (i : Instr) (s : State) :
    (∃ t, exec i s = .next t ∧ DoneIn i s t) ∨ ∃ k s', exec i s = raise k s' ∧ RaisesIn i s k s' := by
  cases i with
  | stack | fletch | torch | strength | weakness | speed | slowness | redstone | farm | summon | reset | hop =>
    exact .inl ⟨_, rfl, rfl, ⟨rfl, rfl, rfl, rfl⟩, rfl, id⟩
  | craft | punch | move =>
    obtain h | h := checkedWrite_cases _ _ _ s
    · exact .inr ⟨_, _, h, rfl, rfl⟩
    · exact .inl ⟨_, h, rfl, ⟨rfl, rfl, rfl, rfl⟩, rfl, id⟩
  | split rd rs rt =>
    by_cases hrt : s.reg rt = 0
    · exact .inr ⟨_, _, (exec_split ..).trans (if_pos hrt), rfl, rfl⟩
    · exact .inl ⟨_, (exec_split ..).trans (if_neg hrt), rfl, ⟨rfl, rfl, rfl, rfl⟩, rfl, id⟩
  | chest rt rs imm | build rt rs imm =>
    obtain ⟨k, hk, h⟩ | h := storeWord_cases rt rs imm s
    · exact .inr ⟨k, s, h, hk, rfl⟩
    · exact .inl ⟨_, h, rfl, ⟨rfl, rfl, rfl, rfl⟩, rfl, fun hwf => writeWord_wf hwf _ _⟩
  | enchant rt rs imm =>
    cases hread : memRead s (s.ea rs imm) with
    | error k => exact .inr ⟨k, s, exec_enchant_fault hread, hread, rfl⟩
    | ok v =>
      obtain ⟨ha, hr, -⟩ := memRead_ok.mp hread
      exact .inl ⟨_, exec_enchant_done ha hr, rfl, ⟨rfl, rfl, rfl, rfl⟩, rfl, id⟩
  | breakBlock rt rs imm =>
    obtain ⟨k, hk, h⟩ | ⟨ha, -, hw, h⟩ | ⟨-, -, -, h⟩ := exec_break_cases rt rs imm s
    · exact .inr ⟨k, s, h, .inl ⟨hk, rfl⟩⟩
    · exact .inr ⟨_, _, h, .inr ⟨memWrite_outOfRange ha hw, rfl⟩⟩
    · exact .inl ⟨_, h, rfl, ⟨rfl, rfl, rfl, rfl⟩, rfl, fun hwf => writeWord_wf hwf _ _⟩
  | creeper rs imm =>
    obtain ⟨j, -, ⟨rfl, h⟩ | ⟨hj, k, hk, h⟩⟩ := exec_creeper_cases rs imm s
    · exact .inl ⟨_, h, rfl, ⟨rfl, rfl, rfl, rfl⟩, rfl, fun hwf => zeroed_wf _ _ hwf⟩
    · exact .inr ⟨k, _, h, j, hj, hk, rfl⟩

/-- The partial effects of a fault are in the registers and the memory alone (R88). -/
theorem RaisesIn.frame (h : RaisesIn i s k s') : s' = { s with regs := s'.regs, mem := s'.mem } := by
  cases i with
  | craft | punch | move | split | chest | build | enchant =>
    obtain ⟨-, rfl⟩ := h
    rfl
  | breakBlock =>
    obtain ⟨-, rfl⟩ | ⟨-, rfl⟩ := h <;> rfl
  | creeper =>
    obtain ⟨j, -, -, rfl⟩ := h
    rfl
  | _ => exact h.elim

/-- Everything a dispatch can answer: Done, or the state of R88 with the record of R84. -/
theorem exec_next (h : exec i s = .next t) : DoneIn i s t ∨
    ∃ k s', RaisesIn i s k s' ∧ t = { s' with fault := some (faultRecord k s) } := by
  obtain ⟨t', ht', hdone⟩ | ⟨k, s', hk, hraise⟩ := exec_cases i s
  · obtain rfl : t' = t := Host.Outcome.next.inj (ht'.symm.trans h)
    exact .inl hdone
  · have hrecord : faultRecord k s' = faultRecord k s := by rw [hraise.frame]; rfl
    exact .inr ⟨k, s', hraise, hrecord ▸ raise_next.mp (hk.symm.trans h)⟩

/-- A record that a dispatch leaves where there was none is that of the fault it raised. -/
theorem exec_raised (hs : s.fault = none) (h : exec i s = .next t) (hr : t.fault = some r) :
    ∃ k s', RaisesIn i s k s' ∧ t = { s' with fault := some r } ∧ r = faultRecord k s := by
  obtain hdone | ⟨k, s', hraise, rfl⟩ := exec_next h
  · cases hs.symm.trans (hdone.fault.symm.trans hr)
  · obtain rfl : faultRecord k s = r := Option.some.inj hr
    exact ⟨k, s', hraise, rfl, rfl⟩

theorem exec_sameHost (h : exec i s = .next t) : SameHost s t := by
  obtain hdone | ⟨k, s', hraise, rfl⟩ := exec_next h
  · exact hdone.host
  · rw [hraise.frame]
    exact ⟨rfl, rfl, rfl, rfl⟩

/-- Settles O38: the two ends of `exec_cases`. -/
theorem everyInstructionEndsDoneOrRecorded : Obligations.EveryInstructionEndsDoneOrRecorded := by
  intro i s
  obtain ⟨t, ht, hdone⟩ | ⟨k, s', hk, hraise⟩ := exec_cases i s
  · exact ⟨t, ht, .inl hdone.fault⟩
  · refine ⟨_, hk, .inr ⟨k, ?_, ?_⟩⟩
    · rw [hraise.frame]
      rfl
    · rw [hraise.frame]

/-- Settles O37: Done advances the PC, and a fault leaves it. -/
theorem onlyHopLeavesTheSequence : Obligations.OnlyHopLeavesTheSequence := by
  intro i s t hs hhop h
  obtain hdone | ⟨k, s', hraise, rfl⟩ := exec_next h
  · have hpc : nextPc i s = s.pc + 4 := by
      cases i with
      | hop target => exact absurd rfl (hhop target)
      | _ => rfl
    exact ⟨fun _ => hdone.pc.trans hpc, fun hfault => absurd (hdone.fault.trans hs) hfault⟩
  · refine ⟨nofun, fun _ => ?_⟩
    rw [hraise.frame]

/-! ## Which fault (R84 to R90) -/

theorem memRead_error_kind (h : memRead s a = .error k) : ∃ why, k = .address .load a why := by
  obtain ⟨-, rfl⟩ | ⟨-, -, rfl⟩ := memRead_error.mp h <;> exact ⟨_, rfl⟩

theorem memWrite_error_kind (h : memWrite s a v = .error k) : ∃ why, k = .address .store a why := by
  obtain ⟨-, rfl⟩ | ⟨-, -, rfl⟩ := memWrite_error.mp h <;> exact ⟨_, rfl⟩

/-- Settles O39: the raisers are those of `RaisesIn`, and a failing access is of its own kind. -/
theorem eachFaultHasItsRaisers : Obligations.EachFaultHasItsRaisers := by
  intro i s t r hs h hr
  obtain ⟨k, s', hraise, -, rfl⟩ := exec_raised hs h hr
  cases i with
  | craft | punch | move | split =>
    obtain ⟨rfl, -⟩ := hraise
    simp [faultRecord, faultCode]
  | chest | build =>
    obtain ⟨why, rfl⟩ := memWrite_error_kind hraise.1
    simp [faultRecord, faultCode]
  | enchant =>
    obtain ⟨why, rfl⟩ := memRead_error_kind hraise.1
    simp [faultRecord, faultCode]
  | breakBlock =>
    obtain ⟨hk, -⟩ | ⟨hk, -⟩ := hraise
    · obtain ⟨why, rfl⟩ := memRead_error_kind hk
      simp [faultRecord, faultCode]
    · obtain ⟨why, rfl⟩ := memWrite_error_kind hk
      simp [faultRecord, faultCode]
  | creeper =>
    obtain ⟨j, -, hk, -⟩ := hraise
    obtain ⟨why, rfl⟩ := memWrite_error_kind hk
    simp [faultRecord, faultCode]
  | _ => exact hraise.elim

/-- Settles O40: the partial effects are those of `RaisesIn`. -/
theorem faultsArePrecise : Obligations.FaultsArePrecise := by
  intro i s t r hs h hr
  obtain ⟨k, s', hraise, rfl, rfl⟩ := exec_raised hs h hr
  cases i with
  | craft | punch | move | split | chest | build | enchant =>
    obtain ⟨-, rfl⟩ := hraise
    rfl
  | breakBlock rt rs imm =>
    obtain ⟨hk, rfl⟩ | ⟨hk, rfl⟩ := hraise
    · exact ⟨rfl, .inl ⟨memRead_error_kind hk, rfl⟩⟩
    · exact ⟨rfl, .inr ⟨memWrite_error_kind hk, registerWritten_of_regs_eq rfl⟩⟩
  | creeper rs imm =>
    obtain ⟨j, hj, hk, rfl⟩ := hraise
    refine ⟨rfl, fun hwf => ?_⟩
    simp only [ofNat_four_mul]
    exact ⟨j, hj, memWrite_error_kind hk, fun i hi => readWord_zeroed _ _ hwf hi,
      fun b hb => readByte_zeroed_outside _ _ hwf hb⟩
  | _ => exact hraise.elim

/-! ## The counter is seen by summon and reset alone (R13, R82) -/

/-- Whether and how a write fails depends on the address and the memory map alone. -/
theorem memWrite_error_congr {v' : Word} (hmap : t.memMap = s.memMap) (h : memWrite s a v = .error k) :
    memWrite t a v' = .error k := by
  rw [memWrite_error, validW_congr hmap]
  exact memWrite_error.mp h

theorem checkedWrite_with_cnt {ovf : Bool} {rd : RegIdx} (c : Word) (h : checkedWrite ovf rd v s = .next t) :
    checkedWrite ovf rd v { s with cnt := c } = .next { t with cnt := c } := by
  obtain ⟨rfl, rfl⟩ | ⟨rfl, rfl⟩ := checkedWrite_next.mp h <;> rfl

theorem storeWord_with_cnt {rt rs : RegIdx} {imm : Imm16} (c : Word) (h : storeWord rt rs imm s = .next t) :
    storeWord rt rs imm { s with cnt := c } = .next { t with cnt := c } := by
  obtain ⟨k, hk, rfl⟩ | ⟨ha, hw, rfl⟩ := storeWord_next.mp h
  · exact storeWord_next.mpr (.inl ⟨k, memWrite_error_congr (s := s) rfl hk, rfl⟩)
  · exact storeWord_next.mpr (.inr ⟨ha, hw, rfl⟩)

/-- Another value in the counter is carried through every other instruction. -/
theorem exec_with_cnt (c : Word) (hsummon : ∀ rd, i ≠ .summon rd) (hreset : i ≠ .reset) (h : exec i s = .next t) :
    exec i { s with cnt := c } = .next { t with cnt := c } := by
  cases i with
  | stack | fletch | torch | strength | weakness | speed | slowness | redstone | farm | hop =>
    cases h
    rfl
  | craft | punch | move => exact checkedWrite_with_cnt c h
  | split rd rs rt =>
    by_cases hrt : s.reg rt = 0
    · rw [exec_split, if_pos hrt] at h
      cases h
      exact (exec_split ..).trans (if_pos hrt)
    · rw [exec_split, if_neg hrt] at h
      cases h
      exact (exec_split ..).trans (if_neg hrt)
  | chest | build => exact storeWord_with_cnt c h
  | enchant rt rs imm =>
    obtain ⟨k, hk, rfl⟩ | ⟨v, hv, rfl⟩ := exec_enchant_next.mp h
    · exact exec_enchant_next.mpr (.inl ⟨k, (memRead_congr rfl rfl _).trans hk, rfl⟩)
    · exact exec_enchant_next.mpr (.inr ⟨v, (memRead_congr rfl rfl _).trans hv, rfl⟩)
  | breakBlock rt rs imm =>
    obtain ⟨k, hk, heq⟩ | ⟨ha, hr, hw, heq⟩ | ⟨ha, hr, hw, heq⟩ := exec_break_cases rt rs imm s <;>
      cases heq.symm.trans h
    · exact exec_break_readFault (s := { s with cnt := c }) ((memRead_congr rfl rfl _).trans hk)
    · exact exec_break_writeFault (s := { s with cnt := c }) ha hr hw
    · exact exec_break_done (s := { s with cnt := c }) ha hr hw
  | creeper rs imm =>
    obtain ⟨j, hall, ⟨rfl, heq⟩ | ⟨hj, k, hk, heq⟩⟩ := exec_creeper_cases rs imm s <;> cases heq.symm.trans h
    · exact exec_creeper_done (s := { s with cnt := c }) hall
    · exact exec_creeper_fault (s := { s with cnt := c }) hj hall (memWrite_error_congr (s := s) rfl hk)
  | summon rd => exact absurd rfl (hsummon rd)
  | reset => exact absurd rfl hreset

/-- Settles O36: with its own counter put back, the state is the same, so the counter was kept. -/
theorem onlySummonAndResetTouchTheCounter : Obligations.OnlySummonAndResetTouchTheCounter := by
  intro i s t c hsummon hreset h
  have hback : exec i s = .next { t with cnt := s.cnt } := exec_with_cnt s.cnt hsummon hreset h
  have hsame : t = { t with cnt := s.cnt } := Host.Outcome.next.inj (h.symm.trans hback)
  exact ⟨by rw [hsame], exec_with_cnt c hsummon hreset h⟩

end Sys2Proof.Machine
end

section
/-! PROOFS. Dispatch, fetch and the step (spec/00_scope.md R7; 10_state.md R18; 60_exceptions.md R93;
70_reset_and_hazards.md), and what every step keeps. -/

namespace Sys2Proof.Machine

variable {i : Instr} {s s' t : State} {k : FaultKind} {r : FaultRecord} {a v w : Word}

/-! ## Dispatch (R7) -/

/-- A matched word runs its instruction. -/
theorem dispatch_of_decode (h : decode w = .ok i) (s : State) : dispatch w s = exec i (s.present w) := by
  rw [dispatch, h]

/-- An unmatched word raises an EncodingFault (R86). -/
theorem dispatch_of_error {e : DecodeError} (h : decode w = .error e) (s : State) :
    dispatch w s = raise .encoding (s.present w) := by
  rw [dispatch, h]

/-- Everything a dispatch can do. -/
theorem dispatch_cases (w : Word) (s : State) :
    (∃ i, decode w = .ok i ∧ dispatch w s = exec i (s.present w)) ∨ dispatch w s = raise .encoding (s.present w) := by
  cases h : decode w with
  | ok i => exact .inl ⟨i, rfl, dispatch_of_decode h s⟩
  | error e => exact .inr (dispatch_of_error h s)

/-- Every dispatch answers a next state. -/
theorem exists_dispatch_eq_next (w : Word) (s : State) : ∃ t, dispatch w s = .next t := by
  obtain ⟨i, -, h⟩ | h := dispatch_cases w s
  · obtain ⟨t, ht, -⟩ := everyInstructionEndsDoneOrRecorded i (s.present w)
    exact ⟨t, h.trans ht⟩
  · exact ⟨_, h⟩

/-- Settles O41: the two arms of a dispatch, by what lookup answers. -/
theorem dispatchLooksUpExtractsExecutes : Obligations.DispatchLooksUpExtractsExecutes := by
  intro w s
  refine ⟨fun hnone => ?_, fun sp hsome => ?_⟩
  · exact ⟨_, dispatch_of_error (decode_eq_error_iff.mpr ⟨hnone, rfl⟩) s, rfl, rfl, rfl⟩
  · obtain ⟨hrow, hfits⟩ := lookup_eq_some_iff.mp hsome
    exact dispatch_of_decode (decode_of_fits (hrow ▸ hfits)) s

/-! ## The step (R18, R93) -/

/-- Without a record and at an aligned PC, the fetched word is dispatched. -/
theorem step_eq_dispatch (hs : s.fault = none) (ha : aligned s.pc = true) : step s = dispatch (fetchWord s) s := by
  simp only [step, hs, ha, if_true]

theorem step_of_fault (hr : s.fault = some r) : step s = .fault (.stopped r) := by
  simp only [step, hr]

theorem step_misaligned (hs : s.fault = none) (ha : aligned s.pc = false) : step s = .fault (.fetchMisaligned s.pc) := by
  simp only [step, hs, ha, Bool.false_eq_true, if_false]

/-- A step that answers a next state dispatched the fetched word. -/
theorem step_next (h : step s = .next t) :
    s.fault = none ∧ aligned s.pc = true ∧ dispatch (fetchWord s) s = .next t := by
  cases hs : s.fault with
  | some r =>
    rw [step_of_fault hs] at h
    cases h
  | none =>
    cases ha : aligned s.pc with
    | false =>
      rw [step_misaligned hs ha] at h
      cases h
    | true => exact ⟨rfl, rfl, (step_eq_dispatch hs ha).symm.trans h⟩

/-- Settles O42: fetch, decode, execute. -/
theorem stepRunsTheDecodedInstruction : Obligations.StepRunsTheDecodedInstruction :=
  fun s _ hs ha hi => (step_eq_dispatch hs ha).trans (dispatch_of_decode hi s)

/-- Settles O43: fetch, and the fault of an unmatched word. -/
theorem unmatchedWordRecordsAnEncodingFault : Obligations.UnmatchedWordRecordsAnEncodingFault :=
  fun s hs ha he => (step_eq_dispatch hs ha).trans (dispatch_of_error he s)

/-- Settles O45: the two stops of the step; a dispatch always goes on. -/
theorem stepStopsOnlyOnRecordOrMisalignedPc : Obligations.StepStopsOnlyOnRecordOrMisalignedPc := by
  intro s
  cases hs : s.fault with
  | some r => simp [step_of_fault hs]
  | none =>
    cases ha : aligned s.pc with
    | false => simp [step_misaligned hs ha]
    | true =>
      obtain ⟨t, ht⟩ := exists_dispatch_eq_next (fetchWord s) s
      simp [step_eq_dispatch hs ha, ht]

/-! ## Runs (R112) -/

theorem runUntil_of_fault (hr : s.fault = some r) (endPc : Word) (n : Nat) : runUntil endPc n s = .faulted r s := by
  unfold runUntil
  simp only [hr]

/-- Settles O44: neither the step nor a run goes on from a record. -/
theorem recordedFaultStopsTheRun : Obligations.RecordedFaultStopsTheRun :=
  fun _ _ hr => ⟨step_of_fault hr, runUntil_of_fault hr⟩

section RunEquations
variable {endPc : Word} {n : Nat}

theorem runUntil_at_endPc (hs : s.fault = none) (hpc : s.pc = endPc) : runUntil endPc n s = .ended s := by
  unfold runUntil
  simp only [hs, hpc, if_true]

theorem runUntil_zero (hs : s.fault = none) (hpc : s.pc ≠ endPc) : runUntil endPc 0 s = .running s := by
  unfold runUntil
  simp only [hs, hpc, if_false]

theorem runUntil_succ_next (hs : s.fault = none) (hpc : s.pc ≠ endPc) (h : step s = .next t) :
    runUntil endPc (n + 1) s = runUntil endPc n t := by
  rw [runUntil]
  simp only [hs, hpc, if_false, h]

theorem runUntil_succ_stuck {f : Fault} (hs : s.fault = none) (hpc : s.pc ≠ endPc) (h : step s = .fault f) :
    runUntil endPc (n + 1) s = .stuck f s := by
  rw [runUntil]
  simp only [hs, hpc, if_false, h]

end RunEquations

/-- What the end of a run says of its last state. -/
def RunEnd.Sound (endPc : Word) : RunEnd → Prop
  | .ended t => t.pc = endPc ∧ t.fault = none
  | .faulted r t => t.fault = some r
  | _ => True

theorem runUntil_sound (endPc : Word) (n : Nat) (s : State) : (runUntil endPc n s).Sound endPc := by
  induction n generalizing s with
  | zero =>
    cases hs : s.fault with
    | some r => rwa [runUntil_of_fault hs]
    | none =>
      by_cases hpc : s.pc = endPc
      · rw [runUntil_at_endPc hs hpc]
        exact ⟨hpc, hs⟩
      · rw [runUntil_zero hs hpc]
        trivial
  | succ n ih =>
    cases hs : s.fault with
    | some r => rwa [runUntil_of_fault hs]
    | none =>
      by_cases hpc : s.pc = endPc
      · rw [runUntil_at_endPc hs hpc]
        exact ⟨hpc, hs⟩
      · cases hstep : step s with
        | next t =>
          rw [runUntil_succ_next hs hpc hstep]
          exact ih t
        | fault f =>
          rw [runUntil_succ_stuck hs hpc hstep]
          trivial
        | refused r => exact absurd hstep ((stepStopsOnlyOnRecordOrMisalignedPc s).2 r)

/-- Settles O46: the end is sound, and a run from a record is faulted at once. -/
theorem goodRunsEndAtEndPcWithoutFault : Obligations.GoodRunsEndAtEndPcWithoutFault := by
  intro endPc n s t
  have hsound := runUntil_sound endPc n s
  refine ⟨fun h => ?_, fun r h => by rwa [h] at hsound⟩
  obtain ⟨hpc, ht⟩ : t.pc = endPc ∧ t.fault = none := by rwa [h] at hsound
  cases hs : s.fault with
  | none => exact ⟨hpc, ht, rfl⟩
  | some r =>
    rw [runUntil_of_fault hs] at h
    cases h

/-! ## Fetch (R40, R109) -/

theorem fetchMem_of_smc (h : s.smc = true) : s.fetchMem = s.mem := by rw [State.fetchMem, if_pos h]

theorem fetchMem_of_not_smc (h : s.smc = false) : s.fetchMem = s.code := by
  rw [State.fetchMem, h, if_neg Bool.false_ne_true]

/-- Fetching at another PC reads the same memory there. -/
theorem fetchWord_with_pc (s : State) (p : Word) : fetchWord { s with pc := p } = s.fetchMem.readWord p := rfl

/-- With `SMC` true, fetch after an instruction reads the data memory. -/
theorem fetchWord_after_exec (hsmc : s.smc = true) (h : exec i s = .next t) (p : Word) :
    fetchWord { t with pc := p } = t.mem.readWord p := by
  obtain ⟨-, hkeep, -, -⟩ := exec_sameHost h
  rw [fetchWord_with_pc, fetchMem_of_smc (hkeep.trans hsmc)]

/-- Settles O47: no instruction writes instruction memory, and under `SMC` fetch and load read one memory. -/
theorem fetchSeesStoresExactlyUnderSmc : Obligations.FetchSeesStoresExactlyUnderSmc := by
  refine ⟨fun i s t hsmc h p => ?_, fun i s t hsmc h p => fetchWord_after_exec hsmc h p,
    fun s rt rs imm hwf hsmc ha hw => ⟨?_, ?_, fun hr => ?_⟩, fun s rs imm hwf hsmc hoff hrun => ?_⟩
  · obtain ⟨hcode, hkeep, -, -⟩ := exec_sameHost h
    rw [fetchWord_with_pc, fetchWord_with_pc, fetchMem_of_not_smc hsmc, fetchMem_of_not_smc (hkeep.trans hsmc), hcode]
  · obtain ⟨⟨t, ht, ⟨hread, -⟩, -⟩, -⟩ := storesWriteOneWord s rt rs imm hwf ha hw
    exact ⟨t, ht, (fetchWord_after_exec hsmc ht _).trans hread⟩
  · obtain ⟨-, t, ht, ⟨hread, -⟩, -⟩ := storesWriteOneWord s rt rs imm hwf ha hw
    exact ⟨t, ht, (fetchWord_after_exec hsmc ht _).trans hread⟩
  · obtain ⟨t, ht, -, ⟨hread, -⟩, -⟩ := breakTakesTheWord s rt rs imm hwf ha hr hw
    exact ⟨t, ht, (fetchWord_after_exec hsmc ht _).trans hread⟩
  · obtain ⟨t, ht, hread, -⟩ := creeperZeroesExactlyItsRange s rs imm hwf hoff hrun
    exact ⟨t, ht, fun j hj => (fetchWord_after_exec hsmc ht _).trans (hread j hj)⟩

/-- A word stored where fetch reads it is the word fetched. -/
theorem fetchWord_loadFetched (hmem : s.mem.wf = true) (hcode : s.code.wf = true) (w : Word) :
    fetchWord (s.loadFetched w) = w := by
  rw [fetchWord, loadFetched_pc]
  cases hsmc : s.smc with
  | true =>
    rw [fetchMem_of_smc ((loadFetched_smc s w).trans hsmc), State.loadFetched, if_pos hsmc]
    exact readWord_writeWord hmem s.pc w
  | false =>
    rw [fetchMem_of_not_smc ((loadFetched_smc s w).trans hsmc), State.loadFetched, hsmc, if_neg Bool.false_ne_true]
    exact readWord_writeWord hcode s.pc w

/-- Settles O49: placing a word keeps the record and the PC, and fetch reads it back. -/
theorem placedWordIsDispatched : Obligations.PlacedWordIsDispatched := by
  intro s nbits w hmem hcode hs ha
  rw [State.withFetchWord, step_eq_dispatch ((loadFetched_fault s _).trans hs) (by rwa [loadFetched_pc]),
    fetchWord_loadFetched hmem hcode]

/-! ## What every step keeps -/

/-- Settles O48: neither an instruction nor a fault writes what the host sets. -/
theorem stepNeverChangesTheHostParameters : Obligations.StepNeverChangesTheHostParameters := by
  intro s t h
  obtain ⟨-, -, hdispatch⟩ := step_next h
  obtain ⟨i, -, hi⟩ | hraise := dispatch_cases (fetchWord s) s
  · obtain ⟨hcode, hsmc, hmap, -⟩ := exec_sameHost (hi.symm.trans hdispatch)
    exact ⟨hcode, hsmc, hmap⟩
  · obtain rfl := raise_next.mp (hraise.symm.trans hdispatch)
    exact ⟨rfl, rfl, rfl⟩

/-- The sequential advance keeps the PC aligned (R18). -/
theorem aligned_add_four (p : Word) : aligned (p + 4) = aligned p := by simpa using aligned_run p 1

theorem aligned_nextPc (i : Instr) (h : aligned s.pc = true) : aligned (nextPc i s) = true := by
  cases i with
  | hop target => exact aligned_jumpTarget _ target
  | _ => exact (aligned_add_four s.pc).trans h

theorem recordOk_of_memRead_error (h : memRead s a = .error k) : RecordOk s (faultRecord k s) := by
  obtain ⟨ha, rfl⟩ | ⟨ha, hr, rfl⟩ := memRead_error.mp h
  · exact ⟨rfl, rfl, rfl, ha⟩
  · exact ⟨rfl, rfl, rfl, ha, hr⟩

theorem recordOk_of_memWrite_error (h : memWrite s a v = .error k) : RecordOk s (faultRecord k s) := by
  obtain ⟨ha, rfl⟩ | ⟨ha, hw, rfl⟩ := memWrite_error.mp h
  · exact ⟨rfl, rfl, rfl, ha⟩
  · exact ⟨rfl, rfl, rfl, ha, hw⟩

/-- The record of a fault is that of the access, or of the operation, that raised it (R84, R87). -/
theorem RaisesIn.recordOk (h : RaisesIn i s k s') : RecordOk s (faultRecord k s) := by
  cases i with
  | craft | punch | move | split =>
    obtain ⟨rfl, -⟩ := h
    exact ⟨rfl, rfl, rfl, trivial⟩
  | chest | build => exact recordOk_of_memWrite_error h.1
  | enchant => exact recordOk_of_memRead_error h.1
  | breakBlock =>
    obtain ⟨hk, -⟩ | ⟨hk, -⟩ := h
    · exact recordOk_of_memRead_error hk
    · exact recordOk_of_memWrite_error hk
  | creeper =>
    obtain ⟨j, -, hk, -⟩ := h
    exact recordOk_of_memWrite_error hk
  | _ => exact h.elim

/-- A fault leaves the memory in canonical form (R88). -/
theorem RaisesIn.mem_wf (h : RaisesIn i s k s') (hwf : s.mem.wf = true) : s'.mem.wf = true := by
  cases i with
  | craft | punch | move | split | chest | build | enchant =>
    obtain ⟨-, rfl⟩ := h
    exact hwf
  | breakBlock =>
    obtain ⟨-, rfl⟩ | ⟨-, rfl⟩ := h <;> exact hwf
  | creeper =>
    obtain ⟨j, -, -, rfl⟩ := h
    exact zeroed_wf j _ hwf
  | _ => exact h.elim

/-- A record fits a state through the word presented, the PC and the memory map alone. -/
theorem recordOk_congr (hword : t.word = s.word) (hpc : t.pc = s.pc) (hmap : t.memMap = s.memMap) (h : RecordOk s r) :
    RecordOk t r := by
  simpa only [RecordOk, hword, hpc, validR_congr hmap, validW_congr hmap] using h

/-- An instruction run where no fault is recorded keeps the invariant. -/
theorem exec_keeps_inv (hs : s.Inv) (hfault : s.fault = none) (h : exec i s = .next t) : t.Inv := by
  obtain ⟨hmem, hcode, hpc, -⟩ := hs
  obtain ⟨hcode', -⟩ := exec_sameHost h
  obtain hdone | ⟨k, s', hraise, rfl⟩ := exec_next h
  · refine ⟨hdone.mem_wf hmem, hcode' ▸ hcode, hdone.pc ▸ aligned_nextPc i hpc, fun r hr => ?_⟩
    cases hr.symm.trans (hdone.fault.trans hfault)
  · refine ⟨hraise.mem_wf hmem, hcode' ▸ hcode, ?_, fun r hr => ?_⟩
    · rw [hraise.frame]
      exact hpc
    · obtain rfl : faultRecord k s = r := Option.some.inj hr
      rw [hraise.frame]
      exact recordOk_congr rfl rfl rfl hraise.recordOk

/-- An EncodingFault keeps the invariant. -/
theorem raise_encoding_keeps_inv (hs : s.Inv) (h : raise .encoding s = .next t) : t.Inv := by
  obtain ⟨hmem, hcode, hpc, -⟩ := hs
  obtain rfl := raise_next.mp h
  refine ⟨hmem, hcode, hpc, fun r hr => ?_⟩
  obtain rfl : faultRecord .encoding s = r := Option.some.inj hr
  exact ⟨rfl, rfl, rfl, trivial⟩

/-- Presenting a word keeps the invariant where no fault is recorded. -/
theorem present_inv (hs : s.Inv) (hfault : s.fault = none) (w : Word) : (s.present w).Inv := by
  obtain ⟨hmem, hcode, hpc, -⟩ := hs
  refine ⟨hmem, hcode, hpc, fun r hr => ?_⟩
  cases hr.symm.trans hfault

/-- Settles O50: the fetched word is presented, and then either an instruction or an EncodingFault keeps the invariant. -/
theorem stepKeepsInvariant : Obligations.StepKeepsInvariant := by
  intro s t hinv h
  obtain ⟨hfault, -, hdispatch⟩ := step_next h
  have hpresent := present_inv hinv hfault (fetchWord s)
  obtain ⟨i, -, hi⟩ | hraise := dispatch_cases (fetchWord s) s
  · exact exec_keeps_inv hpresent hfault (hi.symm.trans hdispatch)
  · exact raise_encoding_keeps_inv hpresent (hraise.symm.trans hdispatch)

/-! ## Reset (R24, R103) -/

/-- Settles O51: empty memories, an aligned entry PC, no record. -/
theorem resetMeetsInvariant : Obligations.ResetMeetsInvariant := ⟨reset_mem_wf, rfl, rfl, nofun⟩

/-- Settles O52: the fields of the reset state. -/
theorem resetClearsTheCounter : Obligations.ResetClearsTheCounter := ⟨rfl, reg_zero State.reset, rfl⟩

end Sys2Proof.Machine
end

section
/-! PROOFS. The canonical form of a memory: it is determined by what it reads (spec/10_state.md R19; log 5). -/

namespace Sys2Proof.Machine

variable {m m' : Memory} {lo k k' a : Nat} {b b' : Byte}

theorem wfFrom_cons : Memory.wfFrom lo ((k, b) :: m) = true ↔
    lo ≤ k ∧ k < 2 ^ 32 ∧ b ≠ unlistedByte ∧ Memory.wfFrom (k + 1) m = true := by
  simp only [Memory.wfFrom, Bool.and_eq_true, decide_eq_true_eq, bne_iff_ne, and_assoc]

theorem readByte_cons_self (m : Memory) (k : Nat) (b : Byte) : Memory.readByte ((k, b) :: m) k = b := if_pos rfl

theorem readByte_cons_of_lt (m : Memory) (b : Byte) (h : a < k) : Memory.readByte ((k, b) :: m) a = unlistedByte := by
  rw [Memory.readByte, if_neg (by omega), if_pos h]

theorem readByte_cons_of_gt (m : Memory) (b : Byte) (h : k < a) :
    Memory.readByte ((k, b) :: m) a = m.readByte a := by
  rw [Memory.readByte, if_neg (by omega), if_neg (by omega)]

/-- Below its first possible address a canonical memory lists nothing. -/
theorem readByte_of_lt_lo (h : Memory.wfFrom lo m = true) (ha : a < lo) : m.readByte a = unlistedByte := by
  cases m with
  | nil => rfl
  | cons c rest =>
    obtain ⟨hlo, -⟩ := wfFrom_cons.mp h
    exact readByte_cons_of_lt rest c.2 (by omega)

/-- A listed byte is no unlisted one, so a memory that reads the same there lists that address or an earlier one first. -/
theorem head_le_of_readByte_eq (h : Memory.wfFrom lo ((k, b) :: m) = true)
    (hread : Memory.readByte ((k, b) :: m) k = Memory.readByte ((k', b') :: m') k) : k' ≤ k := by
  obtain ⟨-, -, hb, -⟩ := wfFrom_cons.mp h
  by_contra hlt
  rw [readByte_cons_self, readByte_cons_of_lt m' b' (by omega)] at hread
  exact hb hread

/-- A canonical memory that reads as the empty one is empty. -/
theorem eq_nil_of_readByte (h : Memory.wfFrom lo m = true) (hread : ∀ a, m.readByte a = unlistedByte) : m = [] := by
  cases m with
  | nil => rfl
  | cons c rest =>
    obtain ⟨-, -, hb, -⟩ := wfFrom_cons.mp h
    exact absurd ((readByte_cons_self rest c.1 c.2).symm.trans (hread c.1)) hb

/-- Two canonical memories that read the same are the same list: their heads are, and so are their tails. -/
theorem eq_of_readByte_eq (h : Memory.wfFrom lo m = true) (h' : Memory.wfFrom lo m' = true)
    (hread : ∀ a, m.readByte a = m'.readByte a) : m = m' := by
  induction m generalizing m' lo with
  | nil => exact (eq_nil_of_readByte h' fun a => (hread a).symm).symm
  | cons c rest ih =>
    obtain ⟨k, b⟩ := c
    cases m' with
    | nil => exact eq_nil_of_readByte h hread
    | cons c' rest' =>
      obtain ⟨k', b'⟩ := c'
      obtain rfl : k = k' :=
        le_antisymm (head_le_of_readByte_eq h' (hread k').symm) (head_le_of_readByte_eq h (hread k))
      obtain rfl : b = b' := by simpa only [readByte_cons_self] using hread k
      obtain ⟨-, -, -, hrest⟩ := wfFrom_cons.mp h
      obtain ⟨-, -, -, hrest'⟩ := wfFrom_cons.mp h'
      have htail : rest = rest' := ih hrest hrest' fun a => by
        obtain hgt | hle := Nat.lt_or_ge k a
        · simpa only [readByte_cons_of_gt _ b hgt] using hread a
        · rw [readByte_of_lt_lo hrest (by omega), readByte_of_lt_lo hrest' (by omega)]
      rw [htail]

/-- Settles O13: the canonical form from address 0 on. -/
theorem equalBytesMeanEqualMemories : Obligations.EqualBytesMeanEqualMemories :=
  fun _ _ h h' hread => eq_of_readByte_eq h h' hread

end Sys2Proof.Machine
end
